-- ==== Sys2Proof/Word.lean ====
section
/-! DEFINITION. The two widths of the SC/MP: an 8-bit byte and a 16-bit pointer value or address
(spec/00_scope.md R4). -/

namespace Sys2Proof

/-- A data byte: AC, E, a memory byte, a displacement (R4, R57). Bit 7 is the most significant (R5). -/
abbrev Byte := BitVec 8

/-- A pointer value or address: a 4-bit page and a 12-bit offset (R4, R28, R50). -/
abbrev Word := BitVec 16

end Sys2Proof
end

