-- ==== Sys2Proof/Syntax.lean ====
section
/-! DEFINITION. The 46 instructions of spec/opcode_table.json (spec/30_encoding.md R81, R87), one constructor each. -/

namespace Sys2Proof

/-- A pointer register number, the 2-bit `ptr` field (R82). `p0` is the program counter (spec/10_state.md R30). -/
inductive Ptr where
  | p0 | p1 | p2 | p3
  deriving DecidableEq, Repr

/-- The `m` field of format MR (R83): `plain` is PC-relative (ptr 0) or indexed, `auto` is auto-indexed. -/
inductive IndexMode where
  | plain | auto
  deriving DecidableEq, Repr

/-- The instructions. `m` is the mode field, `p` the pointer, `d` the second byte (displacement, immediate or count). -/
inductive Instr where
  -- memory reference (41_memory_reference.md), format MR
  | ld (m : IndexMode) (p : Ptr) (d : Byte)
  | st (m : IndexMode) (p : Ptr) (d : Byte)
  | and (m : IndexMode) (p : Ptr) (d : Byte)
  | or (m : IndexMode) (p : Ptr) (d : Byte)
  | xor (m : IndexMode) (p : Ptr) (d : Byte)
  | dad (m : IndexMode) (p : Ptr) (d : Byte)
  | add (m : IndexMode) (p : Ptr) (d : Byte)
  | cad (m : IndexMode) (p : Ptr) (d : Byte)
  -- immediate (42_immediate.md), format IM
  | ldi (d : Byte)
  | ani (d : Byte)
  | ori (d : Byte)
  | xri (d : Byte)
  | dai (d : Byte)
  | adi (d : Byte)
  | cai (d : Byte)
  -- shift and rotate (43_shift_rotate.md), format IP
  | sio
  | sr
  | srl
  | rr
  | rrl
  -- increment and decrement (44_increment_decrement.md), format ID
  | ild (p : Ptr) (d : Byte)
  | dld (p : Ptr) (d : Byte)
  -- branch (45_branch.md), format JP
  | jmp (p : Ptr) (d : Byte)
  | jp (p : Ptr) (d : Byte)
  | jz (p : Ptr) (d : Byte)
  | jnz (p : Ptr) (d : Byte)
  -- E register (46_extension_register.md), format IP
  | lde
  | xae
  | ane
  | ore
  | xre
  | ade
  | cae
  | dae
  -- pointer register (47_pointer_register.md), format PT
  | xpal (p : Ptr)
  | xpah (p : Ptr)
  | xppc (p : Ptr)
  -- other (48_miscellaneous.md), formats IP and DL
  | halt
  | nop
  | ccl
  | scl
  | ien
  | dint
  | csa
  | cas
  | dly (d : Byte)
  deriving DecidableEq, Repr

end Sys2Proof
end

