-- ==== Sys2Proof/WellFormed.lean ====
section
/-! DEFINITION. Which terms of Instr some bytes decode to: all but auto-indexing on the PC (spec/30_encoding.md R83). -/

namespace Sys2Proof

/-- The mode and pointer of a format MR instruction: "there is no auto-indexed mode on the PC" (R83, D31). -/
def MemFields.wellFormed (m : IndexMode) (p : Ptr) : Bool :=
  !(decide (m = .auto) && decide (p = .p0))

/-- An instruction is well formed when its fields are values its encoding admits (R81 to R84, R89). -/
def Instr.wellFormed : Instr → Bool
  | .ld m p _ => MemFields.wellFormed m p
  | .st m p _ => MemFields.wellFormed m p
  | .and m p _ => MemFields.wellFormed m p
  | .or m p _ => MemFields.wellFormed m p
  | .xor m p _ => MemFields.wellFormed m p
  | .dad m p _ => MemFields.wellFormed m p
  | .add m p _ => MemFields.wellFormed m p
  | .cad m p _ => MemFields.wellFormed m p
  | .ldi _ => true
  | .ani _ => true
  | .ori _ => true
  | .xri _ => true
  | .dai _ => true
  | .adi _ => true
  | .cai _ => true
  | .sio => true
  | .sr => true
  | .srl => true
  | .rr => true
  | .rrl => true
  | .ild _ _ => true
  | .dld _ _ => true
  | .jmp _ _ => true
  | .jp _ _ => true
  | .jz _ _ => true
  | .jnz _ _ => true
  | .lde => true
  | .xae => true
  | .ane => true
  | .ore => true
  | .xre => true
  | .ade => true
  | .cae => true
  | .dae => true
  | .xpal _ => true
  | .xpah _ => true
  | .xppc _ => true
  | .halt => true
  | .nop => true
  | .ccl => true
  | .scl => true
  | .ien => true
  | .dint => true
  | .csa => true
  | .cas => true
  | .dly _ => true

end Sys2Proof
end

