-- ==== Sys2Proof/Decode.lean ====
section
/-! DEFINITION. The decoder of spec/30_encoding.md R93, total on any bytes, and the encoder of R81 and R87. The bit
patterns are the spec's decision D3 (only HALT and NOP are in the source). -/

namespace Sys2Proof

/-- Why bytes are not an instruction. -/
inductive DecodeError where
  /-- The first byte is one of the 135 of R88 (`CC` of R89 among them). -/
  | undefinedOpcode (op : Byte)
  /-- The list ends before the instruction does; the processor's fetch always supplies enough bytes. -/
  | truncated
  deriving DecidableEq, Repr

/-- `v[lo + n - 1 : lo]`, the field of `n` bits from bit `lo` (spec/00_scope.md R5). -/
def bitField (v : Byte) (lo n : Nat) : BitVec n := v.extractLsb' lo n

/-- Bit 7 of the first byte decides the length (R80). -/
def isTwoByte (op : Byte) : Bool := bitField op 7 1 == 1#1

/-- The `ptr` field (R82). -/
def Ptr.ofBits (b : BitVec 2) : Ptr :=
  if b = 0b00#2 then .p0 else if b = 0b01#2 then .p1 else if b = 0b10#2 then .p2 else .p3

/-- The bits of the `ptr` field (R82). -/
def Ptr.toBits : Ptr → BitVec 2
  | .p0 => 0b00#2
  | .p1 => 0b01#2
  | .p2 => 0b10#2
  | .p3 => 0b11#2

/-- The `m` field (R83). -/
def IndexMode.ofBit (b : BitVec 1) : IndexMode := if b = 1#1 then .auto else .plain

/-- The bit of the `m` field (R83). -/
def IndexMode.toBit : IndexMode → BitVec 1
  | .plain => 0#1
  | .auto => 1#1

/-- Format IP: every bit fixed (R87). -/
def impliedTable : List (Byte × Instr) :=
  [(0x00#8, .halt), (0x01#8, .xae), (0x02#8, .ccl), (0x03#8, .scl), (0x04#8, .dint), (0x05#8, .ien),
   (0x06#8, .csa), (0x07#8, .cas), (0x08#8, .nop), (0x19#8, .sio), (0x1C#8, .sr), (0x1D#8, .srl),
   (0x1E#8, .rr), (0x1F#8, .rrl), (0x40#8, .lde), (0x50#8, .ane), (0x58#8, .ore), (0x60#8, .xre),
   (0x68#8, .dae), (0x70#8, .ade), (0x78#8, .cae)]

/-- A one-byte instruction: format IP, or format PT by the upper six bits (R81, R93). -/
def decodeOneByte (op : Byte) : Option Instr :=
  match impliedTable.lookup op with
  | some i => some i
  | none =>
    if bitField op 2 6 = 0b001100#6 then some (.xpal (Ptr.ofBits (bitField op 0 2)))
    else if bitField op 2 6 = 0b001101#6 then some (.xpah (Ptr.ofBits (bitField op 0 2)))
    else if bitField op 2 6 = 0b001111#6 then some (.xppc (Ptr.ofBits (bitField op 0 2)))
    else none

/-- Format JP by its `cond` field (R81). -/
def decodeBranch (cond : BitVec 2) (p : Ptr) (d : Byte) : Instr :=
  if cond = 0b00#2 then .jmp p d
  else if cond = 0b01#2 then .jp p d
  else if cond = 0b10#2 then .jz p d
  else .jnz p d

/-- Format IM by `op[5:3]`; `001` would be a store and is the undefined byte `CC` (R89). -/
def decodeImmediate (o : BitVec 3) (d : Byte) : Option Instr :=
  if o = 0b000#3 then some (.ldi d)
  else if o = 0b001#3 then none
  else if o = 0b010#3 then some (.ani d)
  else if o = 0b011#3 then some (.ori d)
  else if o = 0b100#3 then some (.xri d)
  else if o = 0b101#3 then some (.dai d)
  else if o = 0b110#3 then some (.adi d)
  else some (.cai d)

/-- Format MR by `op[5:3]` (R81, R87). -/
def decodeMemory (o : BitVec 3) (m : IndexMode) (p : Ptr) (d : Byte) : Instr :=
  if o = 0b000#3 then .ld m p d
  else if o = 0b001#3 then .st m p d
  else if o = 0b010#3 then .and m p d
  else if o = 0b011#3 then .or m p d
  else if o = 0b100#3 then .xor m p d
  else if o = 0b101#3 then .dad m p d
  else if o = 0b110#3 then .add m p d
  else .cad m p d

/-- A two-byte instruction (R93). -/
def decodeTwoByte (op d : Byte) : Option Instr :=
  if op = 0x8F#8 then some (.dly d)
  else if bitField op 4 4 = 0b1001#4 then
    some (decodeBranch (bitField op 2 2) (Ptr.ofBits (bitField op 0 2)) d)
  else if bitField op 2 6 = 0b101010#6 then some (.ild (Ptr.ofBits (bitField op 0 2)) d)
  else if bitField op 2 6 = 0b101110#6 then some (.dld (Ptr.ofBits (bitField op 0 2)) d)
  else if bitField op 6 2 = 0b11#2 then
    if bitField op 0 3 = 0b100#3 then decodeImmediate (bitField op 3 3) d
    else some (decodeMemory (bitField op 3 3) (IndexMode.ofBit (bitField op 2 1)) (Ptr.ofBits (bitField op 0 2)) d)
  else none

/-- The instruction of a first byte and, where there is one, a second byte. -/
def decodeOpcode (op d : Byte) : Except DecodeError Instr :=
  match (if isTwoByte op then decodeTwoByte op d else decodeOneByte op) with
  | some i => .ok i
  | none => .error (.undefinedOpcode op)

/-- The decoder of R93: the instruction the list begins with, and the rest of the list. -/
def decode : List Byte → Except DecodeError (Instr × List Byte)
  | [] => .error .truncated
  | op :: rest =>
    if isTwoByte op then
      match rest with
      | [] => .error .truncated
      | d :: rest' => (decodeOpcode op d).map fun i => (i, rest')
    else (decodeOpcode op 0#8).map fun i => (i, rest)

/-- The bytes of format MR: `op5 ++ m ++ ptr`, `disp` (R81). -/
def encodeMemory (op5 : BitVec 5) (m : IndexMode) (p : Ptr) (d : Byte) : List Byte :=
  [op5 ++ m.toBit ++ p.toBits, d]

/-- The bytes of a format with `op6 ++ ptr` in its first byte and a second byte (ID and JP, R81). -/
def encodePtrDisp (op6 : BitVec 6) (p : Ptr) (d : Byte) : List Byte :=
  [op6 ++ p.toBits, d]

/-- The byte of format PT: `op6 ++ ptr` (R81). -/
def encodePtr (op6 : BitVec 6) (p : Ptr) : List Byte :=
  [op6 ++ p.toBits]

/-- The bytes of an instruction, first byte first (R81, R87; the opcode byte is at the lower address, R55). -/
def encode : Instr → List Byte
  | .ld m p d => encodeMemory 0b11000#5 m p d
  | .st m p d => encodeMemory 0b11001#5 m p d
  | .and m p d => encodeMemory 0b11010#5 m p d
  | .or m p d => encodeMemory 0b11011#5 m p d
  | .xor m p d => encodeMemory 0b11100#5 m p d
  | .dad m p d => encodeMemory 0b11101#5 m p d
  | .add m p d => encodeMemory 0b11110#5 m p d
  | .cad m p d => encodeMemory 0b11111#5 m p d
  | .ldi d => [0xC4#8, d]
  | .ani d => [0xD4#8, d]
  | .ori d => [0xDC#8, d]
  | .xri d => [0xE4#8, d]
  | .dai d => [0xEC#8, d]
  | .adi d => [0xF4#8, d]
  | .cai d => [0xFC#8, d]
  | .sio => [0x19#8]
  | .sr => [0x1C#8]
  | .srl => [0x1D#8]
  | .rr => [0x1E#8]
  | .rrl => [0x1F#8]
  | .ild p d => encodePtrDisp 0b101010#6 p d
  | .dld p d => encodePtrDisp 0b101110#6 p d
  | .jmp p d => encodePtrDisp 0b100100#6 p d
  | .jp p d => encodePtrDisp 0b100101#6 p d
  | .jz p d => encodePtrDisp 0b100110#6 p d
  | .jnz p d => encodePtrDisp 0b100111#6 p d
  | .lde => [0x40#8]
  | .xae => [0x01#8]
  | .ane => [0x50#8]
  | .ore => [0x58#8]
  | .xre => [0x60#8]
  | .ade => [0x70#8]
  | .cae => [0x78#8]
  | .dae => [0x68#8]
  | .xpal p => encodePtr 0b001100#6 p
  | .xpah p => encodePtr 0b001101#6 p
  | .xppc p => encodePtr 0b001111#6 p
  | .halt => [0x00#8]
  | .nop => [0x08#8]
  | .ccl => [0x02#8]
  | .scl => [0x03#8]
  | .ien => [0x05#8]
  | .dint => [0x04#8]
  | .csa => [0x06#8]
  | .cas => [0x07#8]
  | .dly d => [0x8F#8, d]

/-- The two bytes of a table word: byte 1 is bits 7..0, byte 2 is bits 15..8, every bit from `nbits` up is 0. -/
def tableWordBytes (nbits w : Nat) : List Byte :=
  [BitVec.ofNat 8 (w % 2 ^ nbits), BitVec.ofNat 8 (w % 2 ^ nbits / 256)]

/-- The instruction the decoder reads from a word of spec/opcode_table.json. -/
def decodeTableWord (nbits w : Nat) : Option Instr :=
  match decode (tableWordBytes nbits w) with
  | .ok (i, _) => some i
  | .error _ => none

end Sys2Proof
end

