-- ==== Sys2Proof/Config.lean ====
section
/-! DEFINITION. What the spec leaves open. An `opaque` constant has no body: nothing can be proved of its value, so a
theorem holds whatever it is; free values are functions of the counter `tick` of State. The two constants with a body are
values the model names (entries 7 and 11). -/

namespace Sys2Proof

/-- The values drawn within ONE instruction step. "They are draws: the environment chooses them, the model must
not fix them" (spec/10_state.md R36; D29: one draw for the interrupt check, one for the reading instruction). -/
structure Inputs where
  /-- The level of SENSE A at the interrupt check that opens the step (spec/60_exceptions.md R222). -/
  senseAAtCheck : Bool
  /-- The level of SENSE A at the instruction, read by CSA (R206). -/
  senseA : Bool
  /-- The level of SENSE B at the instruction, read by CSA (R206). -/
  senseB : Bool
  /-- The level of SIN at the instruction, read by SIO (R150). -/
  serialIn : Bool
  /-- What a device or empty address presents to the fetch of the first byte (spec/20_memory.md R53). -/
  fetchByte1 : Byte
  /-- What a device or empty address presents to the fetch of the second byte (R53). -/
  fetchByte2 : Byte
  /-- What a device or empty address presents to the instruction's one data read (R53). -/
  dataByte : Byte
  /-- The result of a decimal add with a digit above 9 (spec/40_addressing_and_alu.md R120, DAD_NONBCD). -/
  decimalResult : Byte
  /-- The carry of a decimal add with a digit above 9 (R120, DAD_NONBCD). -/
  decimalCarry : Bool
  deriving DecidableEq, Repr, Inhabited

/-- The two effects the spec names for a branch displacement of `0x80` (spec/40_addressing_and_alu.md R117). -/
inductive JumpDisp80 where
  /-- `uses_E`: the signed content of E is added. -/
  | usesE
  /-- `literal_minus_128`: -128 is added. -/
  | literalMinus128
  deriving DecidableEq, Repr, Inhabited

/-- JUMP_DISP80, open (R117, D7). DESIGN CHOICE, entry 1: one of the two effects, which one nothing says. Unsafe only if
a part does neither. -/
opaque Config.jumpDisp80 : JumpDisp80

/-- IEN_LATENCY = 1, open (spec/60_exceptions.md R227, D18). DESIGN CHOICE, entry 3: both values admitted; safe. -/
opaque Config.ienLatencyOne : Bool

/-- The draws of the step at each tick, where the script of State gives none (R36, D29, D10, D25). DESIGN CHOICE,
entries 2, 9 and 10: free values; safe. -/
opaque Config.inputs : Nat → Inputs

/-- The level of SOUT after a reset, until the first SIO, which the spec leaves open (spec/10_state.md R39, U12).
DESIGN CHOICE, entry 7: low; unsafe for a statement that rests on it. -/
def Config.soutAtReset : Bool := false

/-- What a byte of memory that is not listed reads as. DESIGN CHOICE, entry 11 (the spec leaves the initial image to
the platform, R53, R262); unsafe for a statement about a run from reset that reads such a byte. -/
def Config.unlistedByte : Byte := 0x00#8

end Sys2Proof
end

