-- ==== Sys2Proof/Machine/State.lean ====
section
/-! DEFINITION. The state of the machine as plain data (spec/10_state.md R20 to R40), the outputs it records, the
environment's script, the reasons a step can stop, and the state after reset (R39). -/

namespace Sys2Proof.Machine

/-- The six stored bits of SR (R23 to R27). Bits 5 and 4 (SB, SA) "are not storage" (R26). -/
structure Status where
  /-- Bit 7, CY/L. -/
  cyl : Bool
  /-- Bit 6, OV. -/
  ov : Bool
  /-- Bit 3, IE. -/
  ie : Bool
  /-- Bit 2, F2, the level of FLAG2. -/
  f2 : Bool
  /-- Bit 1, F1, the level of FLAG1. -/
  f1 : Bool
  /-- Bit 0, F0, the level of FLAG0. -/
  f0 : Bool
  deriving DecidableEq, Repr

/-- What MEMMAP declares an address to be (spec/20_memory.md R53, R59). -/
inductive RegionKind where
  /-- Reads what was last written. -/
  | ram
  /-- Fixed content, held in the memory list; a write is lost. -/
  | rom
  /-- A read is a draw with side effects outside, a write is an output event. -/
  | device
  /-- A read is a draw, a write is lost. -/
  | empty
  deriving DecidableEq, Repr

/-- One region of the platform's map: the addresses `base` to `base + size - 1`, the page bits the platform does
not decode being 0 (`State.place`). -/
structure Region where
  base : Nat
  size : Nat
  kind : RegionKind
  deriving DecidableEq, Repr

/-- What a read is for: the label of a recorded access (spec/00_scope.md R8, spec/20_memory.md R53). -/
inductive Access where
  | fetch
  | data
  deriving DecidableEq, Repr

/-- The output events, recorded "as an event in program order" (spec/10_state.md R37; devices: spec/20_memory.md R53). -/
inductive Event where
  /-- The levels of FLAG2, FLAG1, FLAG0, by CAS and reset. -/
  | flags (f2 f1 f0 : Bool)
  /-- The level SIO puts on SOUT. -/
  | serialOut (level : Bool)
  /-- The H pulse of HALT. -/
  | haltPulse
  /-- The length of a DLY in cycles (R208). -/
  | delayStart (cycles : Nat)
  /-- A device was read and presented `v`. -/
  | deviceRead (k : Access) (a : Word) (v : Byte)
  /-- A device was written. -/
  | deviceWrite (a : Word) (v : Byte)
  deriving DecidableEq, Repr

/-- One entry of the environment's script (entry 9). All but `draws` happen between instruction steps. -/
inductive ScriptEntry where
  /-- The input levels and presented bytes of the next instruction step (R36). -/
  | draws (d : Inputs)
  /-- NRST is pulled low and released (spec/70_reset_and_hazards.md R260). -/
  | nrst
  /-- CONT changes to `level` (R38, spec/60_exceptions.md R235). -/
  | cont (level : Bool)
  /-- Another bus master writes a byte (spec/20_memory.md R66, D28). -/
  | otherMaster (a : Word) (v : Byte)
  deriving DecidableEq, Repr

/-- Memory: address and byte pairs, in the canonical form `Memory.wf` of Machine/Ops.lean. -/
abbrev Memory := List Host.Cell

/-- The whole machine. -/
structure State where
  /-- The accumulator (R21). -/
  ac : Byte
  /-- The extension register (R22). -/
  e : Byte
  /-- The stored bits of the status register (R23). -/
  sr : Status
  /-- Pointer register 0, which is the program counter (R30). -/
  p0 : Word
  /-- Pointer register 1 (R28). -/
  p1 : Word
  /-- Pointer register 2 (R28). -/
  p2 : Word
  /-- Pointer register 3, exchanged with the PC on interrupt entry (R28, R29). -/
  p3 : Word
  /-- False while CONT holds the processor stopped (R38). -/
  running : Bool
  /-- The next interrupt check is skipped (R38, spec/60_exceptions.md R227). -/
  ienPending : Bool
  /-- The latched level of SOUT (R37, R38). -/
  sout : Bool
  /-- Memory (spec/20_memory.md R50, R53). -/
  mem : Memory
  /-- MEMMAP, the platform's address map; an address in no region is RAM (R59; entry 5). -/
  memmap : List Region
  /-- The page bits the platform decodes, the rest of MEMMAP (R51, R59; entry 23): `1111` all of them, `0000` none, one
  image of 4,096 bytes in every page. -/
  pageMask : BitVec 4
  /-- The events recorded so far, oldest first (R37; entry 12). -/
  events : List Event
  /-- The MODEL's: what the environment does next; past its end the draws are free values (entry 9). -/
  script : List ScriptEntry
  /-- The MODEL's: where the free values of Config are drawn (entry 9). -/
  tick : Nat
  deriving DecidableEq, Repr

/-- Reasons to stop with a fault: none. The SC/MP "raises no synchronous exception" and no access faults
(spec/60_exceptions.md R220, spec/20_memory.md R60), so the type has no constructor. -/
inductive Fault where
  deriving DecidableEq, Repr

/-- Reasons a step has no meaning (`refuse` of spec/00_scope.md R10). -/
inductive Refusal where
  /-- Raised by an arm of `exec` for an instruction without a meaning; no arm does. Safe. -/
  | notModelled (mnemonic : String)
  /-- Raised by the step when the first byte is one of the 135 undefined values (spec/30_encoding.md R88, R89,
  UNDEFINED_OPCODE = refuse, entry 4). Safe: the chip goes on in a way nothing documents. -/
  | undefinedOpcode (op : Byte)
  /-- Raised by the format MR meanings on a term that auto-indexes the PC, which no bytes decode to
  (R83; entry 19). Safe: no step reaches it. -/
  | illFormed
  /-- Raised when a decoder is given too few bytes; the fetch of a step never gives too few. Safe. -/
  | truncated
  deriving DecidableEq, Repr

/-- The stored SR bits after reset (R39). -/
def Status.reset : Status :=
  { cyl := false, ov := false, ie := false, f2 := false, f1 := false, f0 := false }

/-- The machine when NRST is released (R39, spec/70_reset_and_hazards.md R261). `running`: CONT is taken to be high
(entry 8). `sout`: unspecified, the value of entry 7. Memory and its map: the platform's (entries 5, 11 and 23). -/
def State.reset : State :=
  { ac := 0x00#8, e := 0x00#8, sr := Status.reset
    p0 := 0x0000#16, p1 := 0x0000#16, p2 := 0x0000#16, p3 := 0x0000#16
    running := true, ienPending := false, sout := Config.soutAtReset
    mem := [], memmap := [], pageMask := 0b1111#4, events := [.flags false false false], script := [], tick := 0 }

end Sys2Proof.Machine
end

