-- ==== Sys2Proof/Machine/Ops.lean ====
section
/-! DEFINITION. The operations over registers, memory and the outside that every meaning is built from, the interrupt
(its check, its entry and its return), and the events of the environment between steps. -/

namespace Sys2Proof.Machine

/-! Registers -/

/-- Write AC (R21). -/
def State.setAc (s : State) (v : Byte) : State := { s with ac := v }

/-- Write E (R22). -/
def State.setE (s : State) (v : Byte) : State := { s with e := v }

/-- Write the stored bits of SR (R23). -/
def State.setSr (s : State) (v : Status) : State := { s with sr := v }

/-- `SR.CYL <- b` (R27). -/
def State.setCyl (s : State) (b : Bool) : State := { s with sr := { s.sr with cyl := b } }

/-- `SR.OV <- b` (R27). -/
def State.setOv (s : State) (b : Bool) : State := { s with sr := { s.sr with ov := b } }

/-- `SR.IE <- b` (R25). -/
def State.setIe (s : State) (b : Bool) : State := { s with sr := { s.sr with ie := b } }

/-- `P[n]` (spec/00_scope.md R7); `P[0]` is the PC (R30). -/
def State.ptr (s : State) : Ptr → Word
  | .p0 => s.p0
  | .p1 => s.p1
  | .p2 => s.p2
  | .p3 => s.p3

/-- `P[n] <- v`. -/
def State.setPtr (s : State) (p : Ptr) (v : Word) : State :=
  match p with
  | .p0 => { s with p0 := v }
  | .p1 => { s with p1 := v }
  | .p2 => { s with p2 := v }
  | .p3 => { s with p3 := v }

/-- `PC`, "another name for `P[0]` and nothing else" (R7, R30). -/
def State.pc (s : State) : Word := s.p0

/-- `PC <- v` (spec/00_scope.md R11). -/
def State.setPc (s : State) (v : Word) : State := s.setPtr .p0 v

/-- The page of a pointer value, bits 15 to 12 (R28). -/
def pageOf (w : Word) : BitVec 4 := w.extractLsb' 12 4

/-- The offset of a pointer value, bits 11 to 0 (R28). -/
def offsetOf (w : Word) : BitVec 12 := w.extractLsb' 0 12

/-- `P[n].H`, bits 15 to 8 (spec/00_scope.md R7). -/
def highByte (w : Word) : Byte := w.extractLsb' 8 8

/-- `P[n].L`, bits 7 to 0 (spec/00_scope.md R7). -/
def lowByte (w : Word) : Byte := w.extractLsb' 0 8

/-- `Emit(event)` (spec/10_state.md R37). -/
def State.emit (s : State) (ev : Event) : State := { s with events := s.events ++ [ev] }

/-- Set the latched level of SOUT (R37). -/
def State.setSout (s : State) (b : Bool) : State := { s with sout := b }

/-- Set `ien_pending` (R38). -/
def State.setIenPending (s : State) (b : Bool) : State := { s with ienPending := b }

/-- Replace the memory. -/
def State.setMem (s : State) (m : Memory) : State := { s with mem := m }

/-! Page-local address arithmetic (spec/40_addressing_and_alu.md R111) -/

/-- `Add12(p, k)`: the offset is added modulo 4096, the page passes through (R111). -/
def add12 (p : Word) (k : Int) : Word :=
  pageOf p ++ BitVec.ofInt 12 ((offsetOf p).toNat + k)

/-- `Inc12(p) = Add12(p, 1)` (R111). -/
def inc12 (p : Word) : Word := add12 p 1

/-! Memory (spec/20_memory.md) -/

/-- The byte a memory list holds at an address. -/
def Memory.read : Memory → Nat → Byte
  | [], _ => Config.unlistedByte
  | (b, v) :: m, a => if a = b then v else Memory.read m a

/-- Store a byte, keeping the canonical form. -/
def Memory.write : Memory → Nat → Byte → Memory
  | [], a, v => if v = Config.unlistedByte then [] else [(a, v)]
  | (b, w) :: m, a, v =>
    if a < b then (if v = Config.unlistedByte then (b, w) :: m else (a, v) :: (b, w) :: m)
    else if a = b then (if v = Config.unlistedByte then m else (a, v) :: m)
    else (b, w) :: Memory.write m a v

/-- The canonical form: addresses of the 65,536-byte space (R50) strictly rising, no entry equal to what an unlisted
address reads as. -/
def Memory.wf : Memory → Bool
  | [] => true
  | (a, v) :: m => decide (a < 65536) && (v != Config.unlistedByte) && m.all (fun c => decide (a < c.1)) && Memory.wf m

/-- The region of a map an address lies in, the first that holds it. -/
def Region.holds (r : Region) (a : Nat) : Bool := decide (r.base ≤ a) && decide (a < r.base + r.size)

/-- What MEMMAP declares an address to be (R59); an address in no region is RAM (entry 5). -/
def kindAt : List Region → Nat → RegionKind
  | [], _ => .ram
  | r :: rs, a => if r.holds a then r.kind else kindAt rs a

/-- The place in memory the platform sees at an address: the page bits it does not decode are 0 (R51, R59). The processor
itself presents all 16 bits. -/
def State.place (s : State) (a : Word) : Word := (pageOf a &&& s.pageMask) ++ offsetOf a

/-- What MEMMAP declares an address to be, in a state. -/
def State.kindOf (s : State) (a : Word) : RegionKind := kindAt s.memmap (s.place a).toNat

/-- The byte stored at an address, without an access: for RAM and ROM what a read returns (R53). -/
def State.byteAt (s : State) (a : Word) : Byte := Memory.read s.mem (s.place a).toNat

/-- A write as memory sees it, whoever writes: RAM takes the byte, ROM, device and empty addresses do not (R53).
It appears at every address of the same place. -/
def storeByte (a : Word) (v : Byte) (s : State) : State :=
  match s.kindOf a with
  | .ram => s.setMem (Memory.write s.mem (s.place a).toNat v)
  | .rom => s
  | .device => s
  | .empty => s

/-- The values drawn in the present step: the script's, or past its end the free ones (R36; entry 9). -/
def State.inputs (s : State) : Inputs :=
  match s.script with
  | .draws d :: _ => d
  | _ => Config.inputs s.tick

/-- `MemRead(a, 1)` (R53), `drawn` being the byte a device or empty address presents. -/
def busRead (k : Access) (drawn : Byte) (a : Word) (s : State) : Byte × State :=
  match s.kindOf a with
  | .ram => (s.byteAt a, s)
  | .rom => (s.byteAt a, s)
  | .device => (drawn, s.emit (.deviceRead k a drawn))
  | .empty => (drawn, s)

/-- The data read of an instruction (R52, R53). -/
def dataRead (a : Word) (s : State) : Byte × State := busRead .data s.inputs.dataByte a s

/-- `MemWrite(a, 1, v)` (R53): a write to a device is an output event. -/
def memWrite (a : Word) (v : Byte) (s : State) : State :=
  match s.kindOf a with
  | .device => s.emit (.deviceWrite a v)
  | .ram => storeByte a v s
  | .rom => storeByte a v s
  | .empty => storeByte a v s

/-! The interrupt (spec/60_exceptions.md) -/

/-- `PC <-> P[n]`: the effect of XPPC (R192), of interrupt entry (R224) and of the return (R225). -/
def exchangePc (p : Ptr) (s : State) : State := (s.setPtr p s.pc).setPc (s.ptr p)

/-- `InterruptEntry()`: IE is cleared and the PC exchanged with P3; nothing else is saved (R224). -/
def interruptEntry (s : State) : State := exchangePc .p3 (s.setIe false)

/-- The return from the interrupt is `XPPC 3` (R225); IE is not restored. -/
def interruptReturn (s : State) : State := exchangePc .p3 s

/-- Whether the check that opens a step takes the interrupt: SENSE A high, IE set, the check not skipped (R221, R222). -/
def interruptTaken (s : State) : Bool := s.sr.ie && s.inputs.senseAAtCheck && !s.ienPending

/-- `InterruptCheck()` (R222). `ien_pending` is false after it on every path of the rule. -/
def interruptCheck (s : State) : State :=
  if interruptTaken s then interruptEntry (s.setIenPending false) else s.setIenPending false

/-! The environment between steps -/

/-- NRST released: every register at its reset value, memory unchanged (R260 to R262); `running` follows CONT (R39),
SOUT is unspecified again (the value of entry 7). -/
def nrstReset (s : State) : State :=
  { State.reset with
    running := s.running, mem := s.mem, memmap := s.memmap, pageMask := s.pageMask
    events := s.events ++ [.flags false false false], script := s.script, tick := s.tick }

/-- Set the level CONT holds the processor at (R235). -/
def State.setRunning (s : State) (b : Bool) : State := { s with running := b }

/-- Drop the script's first entry. -/
def State.dropEntry (s : State) : State := { s with script := s.script.tail }

/-- The end of an instruction step: its draws are used up. -/
def State.nextDraws (s : State) : State := { s.dropEntry with tick := s.tick + 1 }

/-- What happens instead of an instruction step: an event of the environment, or nothing while CONT holds the
processor stopped ("no step is taken and no state changes", R38; no interrupt check either, whatever SENSE A and IE
are: R236, D33, on which no statement may depend, entry 14). `none`: an instruction step follows. -/
def environmentStep (s : State) : Option State :=
  match s.script with
  | .nrst :: _ => some (nrstReset s.dropEntry)
  | .cont b :: _ => some (s.dropEntry.setRunning b)
  | .otherMaster a v :: _ => some (storeByte a v s.dropEntry)
  | .draws _ :: _ => if s.running then none else some s.dropEntry
  | [] => if s.running then none else some s.dropEntry

end Sys2Proof.Machine
end

