-- ==== Sys2Proof/Machine/Flags.lean ====
section
/-! DEFINITION. The adders and the flag computations (spec/40_addressing_and_alu.md R118 to R123), the one-place shifts
(spec/43_shift_rotate.md), and SR as a byte (spec/10_state.md R23). -/

namespace Sys2Proof.Machine

/-- The outputs of `AddBin`. -/
structure BinSum where
  result : Byte
  carry : Bool
  overflow : Bool
  deriving DecidableEq, Repr

/-- The unsigned sum inside `AddBin`: an integer 0 to 511 (R118). -/
def sumNat (a b : Byte) (c : Bool) : Nat := a.toNat + b.toNat + c.toNat

/-- The result of `AddBin`, modulo 256 (R118). -/
def addBinResult (a b : Byte) (c : Bool) : Byte := BitVec.ofNat 8 (sumNat a b c)

/-- `AddBin(a, b, c)`: 8-bit binary addition with carry-in (R118). -/
def addBin (a b : Byte) (c : Bool) : BinSum :=
  { result := addBinResult a b c
    carry := decide (256 ≤ sumNat a b c)
    overflow := (a.msb == b.msb) && ((addBinResult a b c).msb != a.msb) }

/-- The low nibble, the units digit (R120). -/
def units (b : Byte) : Nat := (bitField b 0 4).toNat

/-- The high nibble, the tens digit (R120). -/
def tens (b : Byte) : Nat := (bitField b 4 4).toNat

/-- Both nibbles are decimal digits (R120). -/
def isBcd (b : Byte) : Bool := decide (units b ≤ 9) && decide (tens b ≤ 9)

/-- The outputs of `AddDec`. -/
structure DecSum where
  result : Byte
  carry : Bool
  deriving DecidableEq, Repr

/-- One digit of a decimal sum: the digit and the carry (R120). -/
def decDigit (n : Nat) : BitVec 4 × Bool :=
  if 9 < n then (BitVec.ofNat 4 (n - 10), true) else (BitVec.ofNat 4 n, false)

/-- `AddDec(a, b, c)` on decimal digits (R120). -/
def addDecDigits (a b : Byte) (c : Bool) : DecSum :=
  let lo := decDigit (units a + units b + c.toNat)
  let hi := decDigit (tens a + tens b + lo.2.toNat)
  { result := hi.1 ++ lo.1, carry := hi.2 }

/-- `AddDec(a, b, c)`; with a nibble above 9 the result and the carry are the draws of DAD_NONBCD (R120; entry 2). -/
def addDec (a b : Byte) (c : Bool) (drawn : DecSum) : DecSum :=
  { result := if isBcd a && isBcd b then (addDecDigits a b c).result else drawn.result
    carry := if isBcd a && isBcd b then (addDecDigits a b c).carry else drawn.carry }

/-- The draws of DAD_NONBCD in the present step. -/
def State.drawnDecimal (s : State) : DecSum :=
  { result := s.inputs.decimalResult, carry := s.inputs.decimalCarry }

/-- `AC <- result; SR.CYL <- carry; SR.OV <- overflow` of `AddBin(AC, b, SR.CYL)` (R118). -/
def addToAc (b : Byte) (s : State) : State :=
  let r := addBin s.ac b s.sr.cyl
  ((s.setAc r.result).setCyl r.carry).setOv r.overflow

/-- Complement-and-add: `AddBin(AC, ~b, SR.CYL)` (R119). -/
def complementAddToAc (b : Byte) (s : State) : State := addToAc (~~~b) s

/-- `AC <- result; SR.CYL <- carry` of `AddDec(AC, b, SR.CYL)`; OV unchanged (R120). -/
def decimalAddToAc (b : Byte) (s : State) : State :=
  let r := addDec s.ac b s.sr.cyl s.drawnDecimal
  (s.setAc r.result).setCyl r.carry

/-- `x ++ v[7:1]`: one place to the right, `x` entering bit 7 (R150 to R154). -/
def shiftIn (x : Bool) (v : Byte) : Byte := BitVec.ofBool x ++ v.extractLsb' 1 7

/-- `v[0]`, the bit pushed out. -/
def bitZero (v : Byte) : Bool := v.getLsbD 0

/-- SR as CSA reads it: `CYL ++ OV ++ SB ++ SA ++ IE ++ F2 ++ F1 ++ F0` (R23, R206). -/
def Status.toByte (r : Status) (sb sa : Bool) : Byte :=
  BitVec.ofBool r.cyl ++ BitVec.ofBool r.ov ++ BitVec.ofBool sb ++ BitVec.ofBool sa ++
    BitVec.ofBool r.ie ++ BitVec.ofBool r.f2 ++ BitVec.ofBool r.f1 ++ BitVec.ofBool r.f0

/-- The stored bits CAS takes from a byte; bits 5 and 4 are discarded (R207). -/
def Status.ofByte (v : Byte) : Status :=
  { cyl := v.getLsbD 7, ov := v.getLsbD 6, ie := v.getLsbD 3
    f2 := v.getLsbD 2, f1 := v.getLsbD 1, f0 := v.getLsbD 0 }

end Sys2Proof.Machine
end

