-- ==== Sys2Proof/Machine/Operands.lean ====
section
/-! DEFINITION. The operand forms: displacement, effective address of memory references and branches
(spec/40_addressing_and_alu.md R110 to R117). -/

namespace Sys2Proof.Machine

/-- `Disp(d)`: the signed displacement, `0x80` selecting the signed content of E (R110). -/
def dispOf (d : Byte) (s : State) : Int := if d = 0x80#8 then s.e.toInt else d.toInt

/-- PC-relative (ptr 0) and indexed addressing: `Add12(P[ptr], Disp(d))` (R112, R113). -/
def eaPlain (p : Ptr) (d : Byte) (s : State) : Word := add12 (s.ptr p) (dispOf d s)

/-- The address an auto-indexed instruction accesses: pre-decrement, post-increment (R115). -/
def eaAuto (p : Ptr) (d : Byte) (s : State) : Word :=
  if dispOf d s < 0 then add12 (s.ptr p) (dispOf d s) else s.ptr p

/-- `EA_mem(m, ptr, d)` (R116): the effective address and the state with the pointer rewritten, or `none` for the
`Imm` of m = 1 with ptr = 0, which the format MR instructions never have. -/
def eaMem (m : IndexMode) (p : Ptr) (d : Byte) (s : State) : Option (Word × State) :=
  match m with
  | .plain => some (eaPlain p d s, s)
  | .auto => if p = .p0 then none else some (eaAuto p d s, s.setPtr p (add12 (s.ptr p) (dispOf d s)))

/-- What a branch with displacement byte `d` adds; `0x80` is the open JUMP_DISP80 (R117; entry 1). -/
def jumpDisp (d : Byte) (s : State) : Int :=
  if d = 0x80#8 then
    match Config.jumpDisp80 with
    | .usesE => s.e.toInt
    | .literalMinus128 => -128
  else d.toInt

/-- `EA_jump(ptr, d)` (R117). -/
def eaJump (p : Ptr) (d : Byte) (s : State) : Word := add12 (s.ptr p) (jumpDisp d s)

end Sys2Proof.Machine
end

