-- ==== Sys2Proof/Machine/Branch.lean ====
section
/-! DEFINITION. JMP JP JZ JNZ (spec/45_branch.md R165 to R168). -/

namespace Sys2Proof.Machine

/-- `t <- EA_jump(ptr, d); if taken then PC <- t` (R165 to R168). No memory access is made at the target (R58). -/
def branchIf (taken : Bool) (p : Ptr) (d : Byte) (s : State) : State :=
  if taken then s.setPc (eaJump p d s) else s

/-- `JMP` (R165). -/
def execJmp (p : Ptr) (d : Byte) (s : State) : Host.Outcome State Fault Refusal := .next (branchIf true p d s)

/-- `JP`: taken when AC[7] = 0, zero included (R166). -/
def execJp (p : Ptr) (d : Byte) (s : State) : Host.Outcome State Fault Refusal := .next (branchIf (!s.ac.msb) p d s)

/-- `JZ`: taken when AC = 0 (R167). -/
def execJz (p : Ptr) (d : Byte) (s : State) : Host.Outcome State Fault Refusal := .next (branchIf (s.ac == 0x00#8) p d s)

/-- `JNZ`: taken when AC is not 0 (R168). -/
def execJnz (p : Ptr) (d : Byte) (s : State) : Host.Outcome State Fault Refusal := .next (branchIf (s.ac != 0x00#8) p d s)

end Sys2Proof.Machine
end

