-- ==== Sys2Proof/Machine/ExtensionRegister.lean ====
section
/-! DEFINITION. LDE XAE ANE ORE XRE ADE CAE DAE (spec/46_extension_register.md R175 to R182). -/

namespace Sys2Proof.Machine

/-- `LDE`: `AC <- E` (R175). -/
def execLde (s : State) : Host.Outcome State Fault Refusal := .next (s.setAc s.e)

/-- `XAE`: `AC <-> E`, both read first (R176). -/
def execXae (s : State) : Host.Outcome State Fault Refusal := .next ((s.setAc s.e).setE s.ac)

/-- `ANE`: `AC <- AC & E` (R177). -/
def execAne (s : State) : Host.Outcome State Fault Refusal := .next (s.setAc (s.ac &&& s.e))

/-- `ORE`: `AC <- AC | E` (R178). -/
def execOre (s : State) : Host.Outcome State Fault Refusal := .next (s.setAc (s.ac ||| s.e))

/-- `XRE`: `AC <- AC ^ E` (R179). -/
def execXre (s : State) : Host.Outcome State Fault Refusal := .next (s.setAc (s.ac ^^^ s.e))

/-- `ADE`: binary add with carry; CY/L and OV (R180). -/
def execAde (s : State) : Host.Outcome State Fault Refusal := .next (addToAc s.e s)

/-- `CAE`: complement and add; CY/L and OV (R181). -/
def execCae (s : State) : Host.Outcome State Fault Refusal := .next (complementAddToAc s.e s)

/-- `DAE`: decimal add with carry; CY/L (R182). -/
def execDae (s : State) : Host.Outcome State Fault Refusal := .next (decimalAddToAc s.e s)

end Sys2Proof.Machine
end

