-- ==== Sys2Proof/Machine/Immediate.lean ====
section
/-! DEFINITION. LDI ANI ORI XRI ADI CAI DAI (spec/42_immediate.md R140 to R146): the operand is the second byte, no data access
is made and `0x80` has no special meaning (R114). -/

namespace Sys2Proof.Machine

/-- `LDI`: `AC <- d` (R140). -/
def execLdi (d : Byte) (s : State) : Host.Outcome State Fault Refusal := .next (s.setAc d)

/-- `ANI`: `AC <- AC & d` (R141). -/
def execAni (d : Byte) (s : State) : Host.Outcome State Fault Refusal := .next (s.setAc (s.ac &&& d))

/-- `ORI`: `AC <- AC | d` (R142). -/
def execOri (d : Byte) (s : State) : Host.Outcome State Fault Refusal := .next (s.setAc (s.ac ||| d))

/-- `XRI`: `AC <- AC ^ d` (R143). -/
def execXri (d : Byte) (s : State) : Host.Outcome State Fault Refusal := .next (s.setAc (s.ac ^^^ d))

/-- `ADI`: binary add with carry; CY/L and OV (R144). -/
def execAdi (d : Byte) (s : State) : Host.Outcome State Fault Refusal := .next (addToAc d s)

/-- `CAI`: complement and add; CY/L and OV (R145). -/
def execCai (d : Byte) (s : State) : Host.Outcome State Fault Refusal := .next (complementAddToAc d s)

/-- `DAI`: decimal add with carry; CY/L (R146). -/
def execDai (d : Byte) (s : State) : Host.Outcome State Fault Refusal := .next (decimalAddToAc d s)

end Sys2Proof.Machine
end

