-- ==== Sys2Proof/Machine/IncrementDecrement.lean ====
section
/-! DEFINITION. ILD DLD (spec/44_increment_decrement.md R160, R161). -/

namespace Sys2Proof.Machine

/-- One read then one write of the same address, the new byte to AC as well; no flag (R160, R161). -/
def updateMemory (f : Byte → Byte) (p : Ptr) (d : Byte) (s : State) : State :=
  let a := eaPlain p d s
  let v := f (dataRead a s).1
  (memWrite a v (dataRead a s).2).setAc v

/-- `ILD`: increment modulo 256 (R160). -/
def execIld (p : Ptr) (d : Byte) (s : State) : Host.Outcome State Fault Refusal :=
  .next (updateMemory (fun v => v + 1#8) p d s)

/-- `DLD`: decrement modulo 256 (R161). -/
def execDld (p : Ptr) (d : Byte) (s : State) : Host.Outcome State Fault Refusal :=
  .next (updateMemory (fun v => v - 1#8) p d s)

end Sys2Proof.Machine
end

