-- ==== Sys2Proof/Machine/MemoryReference.lean ====
section
/-! DEFINITION. LD ST AND OR XOR ADD CAD DAD (spec/41_memory_reference.md R130 to R137). -/

namespace Sys2Proof.Machine

/-- The operations that take one memory operand: the effective address, the data read, then `f` on the byte read.
The `Imm` of `EA_mem` is refused: it is another instruction's bit pattern, or none (R116, R89; entry 19). -/
def withOperand (f : Byte → State → State) (m : IndexMode) (p : Ptr) (d : Byte) (s : State) :
    Host.Outcome State Fault Refusal :=
  match eaMem m p d s with
  | none => .refused .illFormed
  | some (a, t) => .next (f (dataRead a t).1 (dataRead a t).2)

/-- `ST`: `MemWrite(EA, 1, AC)`; AC and the flags unchanged (R131). -/
def execSt (m : IndexMode) (p : Ptr) (d : Byte) (s : State) : Host.Outcome State Fault Refusal :=
  match eaMem m p d s with
  | none => .refused .illFormed
  | some (a, t) => .next (memWrite a t.ac t)

/-- `LD`: `AC <- MemRead(EA, 1)`; no flag (R130). -/
def execLd (m : IndexMode) (p : Ptr) (d : Byte) (s : State) : Host.Outcome State Fault Refusal :=
  withOperand (fun v t => t.setAc v) m p d s

/-- `AND`: `AC <- AC & MemRead(EA, 1)`; no flag (R132, R121). -/
def execAnd (m : IndexMode) (p : Ptr) (d : Byte) (s : State) : Host.Outcome State Fault Refusal :=
  withOperand (fun v t => t.setAc (t.ac &&& v)) m p d s

/-- `OR`: `AC <- AC | MemRead(EA, 1)`; no flag (R133, R121). -/
def execOr (m : IndexMode) (p : Ptr) (d : Byte) (s : State) : Host.Outcome State Fault Refusal :=
  withOperand (fun v t => t.setAc (t.ac ||| v)) m p d s

/-- `XOR`: `AC <- AC ^ MemRead(EA, 1)`; no flag (R134, R121). -/
def execXor (m : IndexMode) (p : Ptr) (d : Byte) (s : State) : Host.Outcome State Fault Refusal :=
  withOperand (fun v t => t.setAc (t.ac ^^^ v)) m p d s

/-- `ADD`: binary add with carry; CY/L and OV (R135). -/
def execAdd (m : IndexMode) (p : Ptr) (d : Byte) (s : State) : Host.Outcome State Fault Refusal :=
  withOperand addToAc m p d s

/-- `CAD`: complement and add; CY/L and OV (R136). -/
def execCad (m : IndexMode) (p : Ptr) (d : Byte) (s : State) : Host.Outcome State Fault Refusal :=
  withOperand complementAddToAc m p d s

/-- `DAD`: decimal add with carry; CY/L (R137). The pointer update of an auto-indexed `DAD` happens whatever the digits. -/
def execDad (m : IndexMode) (p : Ptr) (d : Byte) (s : State) : Host.Outcome State Fault Refusal :=
  withOperand decimalAddToAc m p d s

end Sys2Proof.Machine
end

