-- ==== Sys2Proof/Machine/Miscellaneous.lean ====
section
/-! DEFINITION. HALT NOP CCL SCL IEN DINT CSA CAS DLY (spec/48_miscellaneous.md R200 to R208). -/

namespace Sys2Proof.Machine

/-- `HALT`: the H pulse is the whole effect; the processor does not stop (R200). -/
def execHalt (s : State) : Host.Outcome State Fault Refusal := .next (s.emit .haltPulse)

/-- `NOP`: nothing (R201). -/
def execNop (s : State) : Host.Outcome State Fault Refusal := .next s

/-- `CCL`: `SR.CYL <- 0` (R202). -/
def execCcl (s : State) : Host.Outcome State Fault Refusal := .next (s.setCyl false)

/-- `SCL`: `SR.CYL <- 1` (R203). -/
def execScl (s : State) : Host.Outcome State Fault Refusal := .next (s.setCyl true)

/-- `IEN`: `SR.IE <- 1`, and with IEN_LATENCY = 1 the next check is skipped (R204; entry 3). -/
def execIen (s : State) : Host.Outcome State Fault Refusal :=
  .next ((s.setIe true).setIenPending (s.ienPending || Config.ienLatencyOne))

/-- `DINT`: `SR.IE <- 0` (R205). -/
def execDint (s : State) : Host.Outcome State Fault Refusal := .next (s.setIe false)

/-- `CSA`: `AC <- SR`, bits 5 and 4 being the levels of SENSE B and SENSE A (R206). -/
def execCsa (s : State) : Host.Outcome State Fault Refusal :=
  .next (s.setAc (s.sr.toByte s.inputs.senseB s.inputs.senseA))

/-- Setting IE by CAS, from clear, also skips the next check with IEN_LATENCY = 1 (R207; entry 3). -/
def casSkipsCheck (s : State) : Bool := s.ac.getLsbD 3 && !s.sr.ie && Config.ienLatencyOne

/-- `CAS`: the six stored bits from AC, AC[5:4] discarded, and the Flags event (R207). -/
def execCas (s : State) : Host.Outcome State Fault Refusal :=
  .next (((s.setSr (Status.ofByte s.ac)).setIenPending (s.ienPending || casSkipsCheck s)).emit
    (.flags (s.ac.getLsbD 2) (s.ac.getLsbD 1) (s.ac.getLsbD 0)))

/-- The length of a delay in cycles, AC and the count unsigned (R208). -/
def delayCycles (ac d : Byte) : Nat := 13 + 2 * ac.toNat + 514 * d.toNat

/-- `DLY`: leaves AC = 0xFF (R208; no time, entry 18). DESIGN CHOICE, entry 12: it records its length, the event that R208
and R37 make optional. -/
def execDly (d : Byte) (s : State) : Host.Outcome State Fault Refusal :=
  .next ((s.emit (.delayStart (delayCycles s.ac d))).setAc 0xFF#8)

end Sys2Proof.Machine
end

