-- ==== Sys2Proof/Machine/PointerRegister.lean ====
section
/-! DEFINITION. XPAL XPAH XPPC (spec/47_pointer_register.md R190 to R192). -/

namespace Sys2Proof.Machine

/-- `XPAL`: `AC <-> P[ptr][7:0]`, both read first (R190). -/
def execXpal (p : Ptr) (s : State) : Host.Outcome State Fault Refusal :=
  .next ((s.setPtr p (highByte (s.ptr p) ++ s.ac)).setAc (lowByte (s.ptr p)))

/-- `XPAH`: `AC <-> P[ptr][15:8]`, both read first (R191). -/
def execXpah (p : Ptr) (s : State) : Host.Outcome State Fault Refusal :=
  .next ((s.setPtr p (s.ac ++ lowByte (s.ptr p))).setAc (highByte (s.ptr p)))

/-- `XPPC`: `PC <-> P[ptr]`, all 16 bits (R192): the call, and the return. -/
def execXppc (p : Ptr) (s : State) : Host.Outcome State Fault Refusal := .next (exchangePc p s)

end Sys2Proof.Machine
end

