-- ==== Sys2Proof/Machine/ShiftRotate.lean ====
section
/-! DEFINITION. SIO SR SRL RR RRL (spec/43_shift_rotate.md R150 to R154). -/

namespace Sys2Proof.Machine

/-- `SIO`: E is shifted right, SIN into bit 7, the old bit 0 to SOUT, which holds it; AC and the flags untouched (R150). -/
def execSio (s : State) : Host.Outcome State Fault Refusal :=
  .next (((s.setE (shiftIn s.inputs.serialIn s.e)).setSout (bitZero s.e)).emit (.serialOut (bitZero s.e)))

/-- `SR`: `AC <- 0 ++ AC[7:1]` (R151). -/
def execSr (s : State) : Host.Outcome State Fault Refusal := .next (s.setAc (shiftIn false s.ac))

/-- `SRL`: `AC <- SR.CYL ++ AC[7:1]`; CY/L unchanged (R152). -/
def execSrl (s : State) : Host.Outcome State Fault Refusal := .next (s.setAc (shiftIn s.sr.cyl s.ac))

/-- `RR`: `AC <- AC[0] ++ AC[7:1]`; CY/L neither read nor written (R153). -/
def execRr (s : State) : Host.Outcome State Fault Refusal := .next (s.setAc (shiftIn (bitZero s.ac) s.ac))

/-- `RRL`: `AC <- SR.CYL ++ AC[7:1]`, `SR.CYL <- AC[0]`, both from the values before (R154). -/
def execRrl (s : State) : Host.Outcome State Fault Refusal :=
  .next ((s.setAc (shiftIn s.sr.cyl s.ac)).setCyl (bitZero s.ac))

end Sys2Proof.Machine
end

