-- ==== Sys2Proof/Machine/Dispatch.lean ====
section
/-! DEFINITION. One arm per instruction, each one call of its meaning: part 5 of the instruction step
(spec/10_state.md R33), the PC already at the instruction's last byte. -/

namespace Sys2Proof.Machine

def exec (i : Instr) (s : State) : Host.Outcome State Fault Refusal :=
  match i with
  | .ld m p d => Sys2Proof.Machine.execLd m p d s
  | .st m p d => Sys2Proof.Machine.execSt m p d s
  | .and m p d => Sys2Proof.Machine.execAnd m p d s
  | .or m p d => Sys2Proof.Machine.execOr m p d s
  | .xor m p d => Sys2Proof.Machine.execXor m p d s
  | .dad m p d => Sys2Proof.Machine.execDad m p d s
  | .add m p d => Sys2Proof.Machine.execAdd m p d s
  | .cad m p d => Sys2Proof.Machine.execCad m p d s
  | .ldi d => Sys2Proof.Machine.execLdi d s
  | .ani d => Sys2Proof.Machine.execAni d s
  | .ori d => Sys2Proof.Machine.execOri d s
  | .xri d => Sys2Proof.Machine.execXri d s
  | .dai d => Sys2Proof.Machine.execDai d s
  | .adi d => Sys2Proof.Machine.execAdi d s
  | .cai d => Sys2Proof.Machine.execCai d s
  | .sio => Sys2Proof.Machine.execSio s
  | .sr => Sys2Proof.Machine.execSr s
  | .srl => Sys2Proof.Machine.execSrl s
  | .rr => Sys2Proof.Machine.execRr s
  | .rrl => Sys2Proof.Machine.execRrl s
  | .ild p d => Sys2Proof.Machine.execIld p d s
  | .dld p d => Sys2Proof.Machine.execDld p d s
  | .jmp p d => Sys2Proof.Machine.execJmp p d s
  | .jp p d => Sys2Proof.Machine.execJp p d s
  | .jz p d => Sys2Proof.Machine.execJz p d s
  | .jnz p d => Sys2Proof.Machine.execJnz p d s
  | .lde => Sys2Proof.Machine.execLde s
  | .xae => Sys2Proof.Machine.execXae s
  | .ane => Sys2Proof.Machine.execAne s
  | .ore => Sys2Proof.Machine.execOre s
  | .xre => Sys2Proof.Machine.execXre s
  | .ade => Sys2Proof.Machine.execAde s
  | .cae => Sys2Proof.Machine.execCae s
  | .dae => Sys2Proof.Machine.execDae s
  | .xpal p => Sys2Proof.Machine.execXpal p s
  | .xpah p => Sys2Proof.Machine.execXpah p s
  | .xppc p => Sys2Proof.Machine.execXppc p s
  | .halt => Sys2Proof.Machine.execHalt s
  | .nop => Sys2Proof.Machine.execNop s
  | .ccl => Sys2Proof.Machine.execCcl s
  | .scl => Sys2Proof.Machine.execScl s
  | .ien => Sys2Proof.Machine.execIen s
  | .dint => Sys2Proof.Machine.execDint s
  | .csa => Sys2Proof.Machine.execCsa s
  | .cas => Sys2Proof.Machine.execCas s
  | .dly d => Sys2Proof.Machine.execDly d s

end Sys2Proof.Machine
end

