-- ==== Sys2Proof/Machine/Fetch.lean ====
section
/-! DEFINITION. Parts 2 to 4 of the instruction step: the PC is incremented before every fetch (spec/10_state.md R32,
R33); and where a word must lie for the next step to fetch it. -/

namespace Sys2Proof.Machine

/-- `PC <- Inc12(PC); Fetch(PC)`: one byte of the instruction, `drawn` what a device or empty address presents. -/
def fetchByte (drawn : Byte) (s : State) : Byte × State :=
  busRead .fetch drawn (inc12 s.pc) (s.setPc (inc12 s.pc))

/-- The bytes of one instruction and the state with the PC at the last of them (R33 parts 2 to 4). -/
def fetchBytes (s : State) : List Byte × State :=
  let first := fetchByte s.inputs.fetchByte1 s
  if isTwoByte first.1 then
    let second := fetchByte s.inputs.fetchByte2 first.2
    ([first.1, second.1], second.2)
  else ([first.1], first.2)

/-- The refusal a decoding error becomes. -/
def refusalOf : DecodeError → Refusal
  | .undefinedOpcode op => .undefinedOpcode op
  | .truncated => .truncated

/-- Fetch and decode: the instruction, and the state it executes in. -/
def fetchInstruction (s : State) : Except Refusal (Instr × State) :=
  match decode (fetchBytes s).1 with
  | .ok (i, _) => .ok (i, (fetchBytes s).2)
  | .error e => .error (refusalOf e)

/-- The script up to its next entry that lets an instruction step happen. -/
def dropEvents : List ScriptEntry → List ScriptEntry
  | [] => []
  | .draws d :: rest => .draws d :: rest
  | _ :: rest => dropEvents rest

/-- Put a byte where a fetch reads it: into memory, and, where the map has no memory, as a RAM region of one byte. -/
def placeByte (a : Word) (v : Byte) (s : State) : State :=
  let t := s.setMem (Memory.write s.mem (s.place a).toNat v)
  match s.kindOf a with
  | .ram => t
  | .rom => t
  | .device => { t with memmap := ⟨(s.place a).toNat, 1, .ram⟩ :: s.memmap }
  | .empty => { t with memmap := ⟨(s.place a).toNat, 1, .ram⟩ :: s.memmap }

/-- Place the two bytes of a word where the coming instruction step, after its interrupt check, fetches. -/
def placeAtFetch (bytes : List Byte) (s : State) : State :=
  let t : State := { s with running := true, script := dropEvents s.script }
  let a := inc12 (interruptCheck t).pc
  placeByte (inc12 a) (bytes.getD 1 0x00#8) (placeByte a (bytes.getD 0 0x00#8) t)

/-- The end of an instruction step: its draws are used up. -/
def finishStep : Host.Outcome State Fault Refusal → Host.Outcome State Fault Refusal
  | .next t => .next t.nextDraws
  | .fault r => .fault r
  | .refused r => .refused r

end Sys2Proof.Machine
end

