-- ==== Sys2Proof/Machine/Step.lean ====
section
/-! DEFINITION. The instruction step (spec/10_state.md R33): interrupt check, fetch, execution, all in one step; an event
of the environment, or the processor held by CONT, takes a step of its own (entries 9, 14, 15, 16). -/

namespace Sys2Proof.Machine

/-- One instruction step (R33), the processor running and no event of the environment before it. -/
def instructionStep (s : State) : Host.Outcome State Fault Refusal :=
  match fetchInstruction (interruptCheck s) with
  | .ok (i, t) => finishStep (exec i t)
  | .error r => .refused r

/-- One step of the machine. -/
def step (s : State) : Host.Outcome State Fault Refusal :=
  match environmentStep s with
  | some t => .next t
  | none => instructionStep s

/-- `s` with an opcode-table word where the next step fetches, so that the next step runs it (entry 17). -/
def State.withFetchWord (s : State) (nbits w : Nat) : State := placeAtFetch (tableWordBytes nbits w) s

end Sys2Proof.Machine
end

