-- ==== Sys2Proof/Safety.lean ====
section
/-! DEFINITION. The terms claims are stated in: the invariant of the machine, when an instruction step comes next, and
which instructions the spec lets write which register. -/

namespace Sys2Proof.Machine

/-- The next step is an instruction step: the processor is running and no event of the environment comes first. -/
def InstructionNext (s : State) : Prop := environmentStep s = none

/-- The levels of FLAG2, FLAG1, FLAG0 an event records. -/
def flagsOfEvent : Event → Option (Bool × Bool × Bool)
  | .flags f2 f1 f0 => some (f2, f1, f0)
  | .serialOut _ => none
  | .haltPulse => none
  | .delayStart _ => none
  | .deviceRead _ _ _ => none
  | .deviceWrite _ _ => none

/-- The last recorded levels of FLAG2, FLAG1, FLAG0. -/
def lastFlags : List Event → Option (Bool × Bool × Bool)
  | [] => none
  | ev :: rest =>
    match lastFlags rest with
    | some x => some x
    | none => flagsOfEvent ev

/-- The levels of the flag outputs are those last recorded (spec/10_state.md R24, R37). -/
def FlagsRecorded (s : State) : Prop := lastFlags s.events = some (s.sr.f2, s.sr.f1, s.sr.f0)

/-- `ien_pending` is "present only if IEN_LATENCY = 1", and is true only with IE set (spec/10_state.md R38,
spec/48_miscellaneous.md R204, R207). -/
def IenPendingSound (s : State) : Prop :=
  s.ienPending = true → Config.ienLatencyOne = true ∧ s.sr.ie = true

/-- Memory lists only places: no entry at an address with a page bit the platform does not decode (spec/20_memory.md R51,
R59; entry 23). -/
def ListsPlaces (s : State) : Prop := ∀ c ∈ s.mem, s.place (BitVec.ofNat 16 c.1) = BitVec.ofNat 16 c.1

/-- The invariant every step keeps. -/
structure Inv (s : State) : Prop where
  memory : Memory.wf s.mem = true
  places : ListsPlaces s
  flags : FlagsRecorded s
  pending : IenPendingSound s

/-! Which instructions the spec lets write what. The default is `false`: whatever is not listed may not. -/

/-- "No instruction other than those writes AC" (spec/10_state.md R21). -/
def mayWriteAc : Instr → Bool
  | .ld _ _ _ | .ldi _ | .lde | .csa | .ild _ _ | .dld _ _ => true
  | .and _ _ _ | .or _ _ _ | .xor _ _ _ | .add _ _ _ | .cad _ _ _ | .dad _ _ _ => true
  | .ani _ | .ori _ | .xri _ | .adi _ | .cai _ | .dai _ => true
  | .ane | .ore | .xre | .ade | .cae | .dae => true
  | .sr | .srl | .rr | .rrl => true
  | .xae | .xpal _ | .xpah _ | .dly _ => true
  | _ => false

/-- E is "written only by XAE ... and SIO" (spec/10_state.md R22). -/
def mayWriteE : Instr → Bool
  | .xae | .sio => true
  | _ => false

/-- The rows of spec/40_addressing_and_alu.md R123 that write CY/L. -/
def mayWriteCyl : Instr → Bool
  | .add _ _ _ | .adi _ | .ade | .cad _ _ _ | .cai _ | .cae | .dad _ _ _ | .dai _ | .dae => true
  | .rrl | .ccl | .scl | .cas => true
  | _ => false

/-- The rows of R123 that write OV. -/
def mayWriteOv : Instr → Bool
  | .add _ _ _ | .adi _ | .ade | .cad _ _ _ | .cai _ | .cae | .cas => true
  | _ => false

/-- The rows of R123 that write IE. -/
def mayWriteIe : Instr → Bool
  | .ien | .dint | .cas => true
  | _ => false

/-- The rows of R123 that write F2, F1, F0. -/
def mayWriteFlagOutputs : Instr → Bool
  | .cas => true
  | _ => false

/-- The instructions that write a byte of memory (spec/20_memory.md R52). -/
def mayWriteMemory : Instr → Bool
  | .st _ _ _ | .ild _ _ | .dld _ _ => true
  | _ => false

/-- The instructions that write pointer register P1, P2 or P3 number `p`: auto-indexing, XPAL, XPAH and XPPC
(spec/10_state.md R28). -/
def mayWritePointer (p : Ptr) : Instr → Bool
  | .ld .auto q _ | .st .auto q _ | .and .auto q _ | .or .auto q _ | .xor .auto q _ => q == p
  | .dad .auto q _ | .add .auto q _ | .cad .auto q _ => q == p
  | .xpal q | .xpah q | .xppc q => q == p
  | _ => false

/-- The instructions that write the PC: the branches, XPPC, XPAL 0 and XPAH 0 (spec/10_state.md R30, R33). -/
def mayWritePc : Instr → Bool
  | .jmp _ _ | .jp _ _ | .jz _ _ | .jnz _ _ => true
  | .xppc _ => true
  | .xpal p | .xpah p => p == .p0
  | _ => false

/-- The instructions that may put another page into the PC: XPPC, XPAH 0, and a branch through P1 to P3
(spec/10_state.md R31). -/
def mayChangePage : Instr → Bool
  | .jmp p _ | .jp p _ | .jz p _ | .jnz p _ => p != .p0
  | .xppc _ => true
  | .xpah p => p == .p0
  | _ => false

/-! Terms for single rules -/

/-- The 135 first-byte values that are no instruction, as the ranges of spec/30_encoding.md R88. -/
def undefinedRanges : List (Nat × Nat) :=
  [(0x09, 0x18), (0x1A, 0x1B), (0x20, 0x2F), (0x38, 0x3B), (0x41, 0x4F), (0x51, 0x57), (0x59, 0x5F),
   (0x61, 0x67), (0x69, 0x6F), (0x71, 0x77), (0x79, 0x7F),
   (0x80, 0x8E), (0xA0, 0xA7), (0xAC, 0xAF), (0xB0, 0xB7), (0xBC, 0xBF), (0xCC, 0xCC)]

/-- A first byte of R88. -/
def UndefinedFirstByte (op : Byte) : Prop := ∃ r ∈ undefinedRanges, r.1 ≤ op.toNat ∧ op.toNat ≤ r.2

/-- One instruction executed `n` times in a row, without the fetches between. -/
def execTimes (i : Instr) : Nat → State → Host.Outcome State Fault Refusal
  | 0, s => .next s
  | n + 1, s =>
    match exec i s with
    | .next t => execTimes i n t
    | .fault r => .fault r
    | .refused r => .refused r

/-- Carry-in as an integer. -/
def carryIn (s : State) : Nat := s.sr.cyl.toNat

/-- The whole effect of a binary add of `b` (spec/40_addressing_and_alu.md R118): AC modulo 256, CY/L the unsigned
carry, OV the signed overflow, nothing else. -/
def BinaryAddEffect (b : Byte) (s t : State) : Prop :=
  t.ac.toNat = (s.ac.toNat + b.toNat + carryIn s) % 256 ∧
  (t.sr.cyl = true ↔ 256 ≤ s.ac.toNat + b.toNat + carryIn s) ∧
  (t.sr.ov = true ↔ s.ac.toInt + b.toInt + carryIn s < -128 ∨ 127 < s.ac.toInt + b.toInt + carryIn s) ∧
  t = { s with ac := t.ac, sr := { s.sr with cyl := t.sr.cyl, ov := t.sr.ov } }

/-- The whole effect of complement-and-add of `b` (R119): `AC - b - 1 + CY/L` modulo 256, CY/L set when there is no
borrow, OV the signed overflow of the same difference, nothing else. -/
def ComplementAddEffect (b : Byte) (s t : State) : Prop :=
  (t.ac.toNat : Int) = (s.ac.toNat - b.toNat - 1 + carryIn s) % 256 ∧
  (t.sr.cyl = true ↔ (0 : Int) ≤ s.ac.toNat - b.toNat - 1 + carryIn s) ∧
  (t.sr.ov = true ↔
    s.ac.toInt - b.toInt - 1 + carryIn s < -128 ∨ 127 < s.ac.toInt - b.toInt - 1 + carryIn s) ∧
  t = { s with ac := t.ac, sr := { s.sr with cyl := t.sr.cyl, ov := t.sr.ov } }

/-- The decimal value of a byte of two digits: ten times the high nibble plus the low nibble (R120). -/
def decimalValue (b : Byte) : Nat := 10 * tens b + units b

/-- The whole effect of a decimal add of `b` when all four nibbles are digits (R120): decimal AC and carry, OV and
everything else unchanged. -/
def DecimalAddEffect (b : Byte) (s t : State) : Prop :=
  isBcd t.ac = true ∧
  decimalValue t.ac + 100 * t.sr.cyl.toNat = decimalValue s.ac + decimalValue b + carryIn s ∧
  t = { s with ac := t.ac, sr := { s.sr with cyl := t.sr.cyl } }

/-- The whole effect of a decimal add when some nibble is above 9: AC and CY/L are the step's draws (R120, DAD_NONBCD,
entry 2), OV and everything else unchanged. -/
def DecimalDrawEffect (s t : State) : Prop :=
  t = { s with ac := s.inputs.decimalResult, sr := { s.sr with cyl := s.inputs.decimalCarry } }

/-- Memory holds what is read at `a`: RAM or ROM. -/
def IsMemory (s : State) (a : Word) : Prop := s.kindOf a = .ram ∨ s.kindOf a = .rom

end Sys2Proof.Machine
end

