-- ==== Sys2Proof/Certificates/Slice0/Obligations.lean ====
section
/-! DEFINITION. The statements for the provers. Each docstring names the rule of spec/ it formalises; where the spec
marks the rule as its own decision (D<n>) or general knowledge (G<n>), or the model chose, it says so. -/

open Sys2Proof Sys2Proof.Machine

/-! ## Encoding (spec/30_encoding.md) -/

/-- Decoding an encoded well-formed instruction, whatever bytes follow, gives it back with every operand (R81, R87, R93;
the bit patterns are the spec's decision D3). -/
def Obligations.DecodeOfEncode : Prop :=
  ∀ (i : Instr) (rest : List Byte), i.wellFormed = true → decode (encode i ++ rest) = .ok (i, rest)

/-- Whatever decodes is well formed and is exactly the encoding of what it decodes to: no word has two readings, and no
bit is ignored (R81, R87, R93; D3). -/
def Obligations.EncodeOfDecode : Prop :=
  ∀ (bs rest : List Byte) (i : Instr), decode bs = .ok (i, rest) → i.wellFormed = true ∧ bs = encode i ++ rest

/-- Words written out from the encodings of R81 and R87 decode to the instructions they stand for, one or more per
family (sanity; D3). -/
def Obligations.WrittenWordsDecode : Prop :=
  decode [0b11000001#8, 0x05#8] = .ok (.ld .plain .p1 0x05#8, []) ∧
  decode [0b11001110#8, 0xFF#8] = .ok (.st .auto .p2 0xFF#8, []) ∧
  decode [0b11000100#8, 0x80#8] = .ok (.ldi 0x80#8, []) ∧
  decode [0b00011111#8] = .ok (.rrl, []) ∧
  decode [0b10111010#8, 0x00#8] = .ok (.dld .p2 0x00#8, []) ∧
  decode [0b10011111#8, 0x04#8] = .ok (.jnz .p3 0x04#8, []) ∧
  decode [0b01110000#8] = .ok (.ade, []) ∧
  decode [0b00111111#8, 0x00#8] = .ok (.xppc .p3, [0x00#8]) ∧
  decode [0b10001111#8, 0x80#8] = .ok (.dly 0x80#8, [])

/-- The first bytes with no instruction are exactly the 135 of R88, and a step whose first fetched byte is one of them
is refused by name, in every running state (R88, R89; UNDEFINED_OPCODE = refuse is D14, entry 4). -/
def Obligations.UndefinedOpcodesRefused : Prop :=
  (∀ (op d : Byte) (rest : List Byte),
    decode (op :: d :: rest) = .error (.undefinedOpcode op) ↔ UndefinedFirstByte op) ∧
  (∀ (s : State) (op : Byte), InstructionNext s →
    (fetchByte s.inputs.fetchByte1 (interruptCheck s)).1 = op → UndefinedFirstByte op →
    step s = .refused (.undefinedOpcode op))

/-! ## The instruction step (spec/10_state.md R33) -/

/-- When no event of the environment comes first and the bytes fetched after the interrupt check decode to `i`, the step
is `exec i` on the fetched state (PC at the instruction's last byte), after which the step's draws are used up
(R32, R33; D4). -/
def Obligations.StepRunsDecodedInstruction : Prop :=
  ∀ (s : State) (i : Instr) (rest : List Byte), InstructionNext s →
    decode (fetchBytes (interruptCheck s)).1 = .ok (i, rest) →
    step s = finishStep (exec i (fetchBytes (interruptCheck s)).2)

/-- The fetch increments the PC before each byte, within the page, takes a second byte when bit 7 of the first is set,
and changes nothing but the PC (R31 to R33, R80; D4, D5), where memory holds the bytes. -/
def Obligations.FetchReadsAfterIncrement : Prop :=
  ∀ s : State, IsMemory s (inc12 s.p0) →
    (((s.byteAt (inc12 s.p0)).getLsbD 7 = false →
      fetchBytes s = ([s.byteAt (inc12 s.p0)], { s with p0 := inc12 s.p0 })) ∧
    ((s.byteAt (inc12 s.p0)).getLsbD 7 = true → IsMemory s (inc12 (inc12 s.p0)) →
      fetchBytes s =
        ([s.byteAt (inc12 s.p0), s.byteAt (inc12 (inc12 s.p0))], { s with p0 := inc12 (inc12 s.p0) })))

/-- After reset, whatever the platform put in memory and however it maps it, the interrupt check does nothing and, where
there is memory at address 0x0001, the first byte fetched is the one there (spec/70_reset_and_hazards.md R261,
spec/20_memory.md R59; D16). -/
def Obligations.FirstFetchAtOne : Prop :=
  ∀ (m : Memory) (map : List Region) (mask : BitVec 4),
    let s : State := { State.reset with mem := m, memmap := map, pageMask := mask }
    interruptCheck s = s ∧ (IsMemory s 0x0001#16 → (fetchBytes s).1.head? = some (s.byteAt 0x0001#16))

/-- Every well-formed instruction answers a next state in every state, and a term no bytes decode to is refused: the
machine raises no exception (spec/60_exceptions.md R220; D19). The model's choices in it: that a branch with byte 0x80
completes (JUMP_DISP80, entry 1), that a decimal add with a digit above 9 completes (DAD_NONBCD, entry 2), where R220
leaves a model to refuse; and that a term no bytes decode to is refused (entry 19). -/
def Obligations.ExecAlwaysCompletes : Prop :=
  ∀ (i : Instr) (s : State),
    (i.wellFormed = true → ∃ t, exec i s = .next t) ∧ (i.wellFormed = false → exec i s = .refused .illFormed)

/-! ## Addresses (spec/40_addressing_and_alu.md) -/

/-- `Add12` leaves the page and adds to the offset modulo 4096 (R111; D5, G6). -/
def Obligations.Add12StaysInPage : Prop :=
  ∀ (p : Word) (k : Int), pageOf (add12 p k) = pageOf p ∧
    ((offsetOf (add12 p k)).toNat : Int) = ((offsetOf p).toNat + k) % 4096

/-- PC-relative and indexed addressing: pointer plus signed displacement, `0x80` taking the signed content of E; no
register changes (R110, R112, R113; scope of E: D6). -/
def Obligations.PlainEffectiveAddress : Prop :=
  ∀ (p : Ptr) (d : Byte) (s : State),
    eaMem .plain p d s = some (add12 (s.ptr p) (if d = 0x80#8 then s.e.toInt else d.toInt), s)

/-- Auto-indexing: a negative displacement decrements before, a positive one increments after the access, and the
pointer always ends at old pointer plus displacement; nothing else changes (R115; sign after E: D8). -/
def Obligations.AutoIndexedAddress : Prop :=
  ∀ (p : Ptr) (d : Byte) (s : State) (k : Int), p ≠ .p0 → k = (if d = 0x80#8 then s.e.toInt else d.toInt) →
    ∃ a t, eaMem .auto p d s = some (a, t) ∧ t.ptr p = add12 (s.ptr p) k ∧
      (k < 0 → a = t.ptr p) ∧ (0 ≤ k → a = s.ptr p) ∧ t = s.setPtr p (t.ptr p)

/-! ## Memory (spec/20_memory.md) -/

/-- What a read returns and leaves, for each kind of address: RAM and ROM their byte and no trace, a device the drawn
byte and an event, an empty address the drawn byte (R53, R60; D25; the event of a device read is the model's, entry 12). -/
def Obligations.ReadByKind : Prop :=
  ∀ (k : Access) (drawn : Byte) (a : Word) (s : State),
    (IsMemory s a → busRead k drawn a s = (s.byteAt a, s)) ∧
    (s.kindOf a = .device → busRead k drawn a s = (drawn, { s with events := s.events ++ [.deviceRead k a drawn] })) ∧
    (s.kindOf a = .empty → busRead k drawn a s = (drawn, s))

/-- What a write does, for each kind of address: in RAM every address of the same place then reads the byte, every other
address reads as before, and nothing but memory changes (no event); ROM and empty addresses are unchanged, a device gets
an event (R53, R60; D25; an address whose undecoded page bits alone differ is of the same place: R51, R59, D24). -/
def Obligations.WriteByKind : Prop :=
  ∀ (a : Word) (v : Byte) (s : State), Memory.wf s.mem = true →
    (s.kindOf a = .ram → memWrite a v s = { s with mem := (memWrite a v s).mem } ∧
      ∀ b : Word, (memWrite a v s).byteAt b = if s.place b = s.place a then v else s.byteAt b) ∧
    (s.kindOf a = .rom ∨ s.kindOf a = .empty → memWrite a v s = s) ∧
    (s.kindOf a = .device → memWrite a v s = { s with events := s.events ++ [.deviceWrite a v] })

/-- The page bits are decoded as the platform has it: where it decodes none, every page shows the same 4,096 bytes, so
that a byte stored in RAM is read at its offset in every page; where it decodes all, every address is a byte of its own
(R51, R59; D24; the mask that says which bits are decoded is the model's form, entry 23). -/
def Obligations.PageBitsByPlatform : Prop :=
  ∀ (a b : Word) (v : Byte) (s : State),
    (s.pageMask = 0b0000#4 → offsetOf b = offsetOf a → s.byteAt b = s.byteAt a ∧ s.kindOf b = s.kindOf a) ∧
    (s.pageMask = 0b0000#4 → Memory.wf s.mem = true → s.kindOf a = .ram →
      (memWrite a v s).byteAt b = if offsetOf b = offsetOf a then v else s.byteAt b) ∧
    (s.pageMask = 0b1111#4 → Memory.wf s.mem = true → s.kindOf a = .ram →
      (memWrite a v s).byteAt b = if b = a then v else s.byteAt b)

/-- No step whatever, of the processor or of the environment, changes the platform's map, page bits or a byte not RAM
(R53, R59; D24). -/
def Obligations.NonRamNeverChanges : Prop :=
  ∀ (s t : State), step s = .next t →
    t.memmap = s.memmap ∧ t.pageMask = s.pageMask ∧ ∀ a : Word, s.kindOf a ≠ .ram → t.byteAt a = s.byteAt a

/-- A byte stored where the next instruction's first byte lies is what the next fetch reads (R64; D23). -/
def Obligations.StoreSeenByNextFetch : Prop :=
  ∀ (m : IndexMode) (p : Ptr) (d : Byte) (a : Word) (s t u : State), Memory.wf s.mem = true →
    eaMem m p d s = some (a, t) → s.kindOf a = .ram → exec (.st m p d) s = .next u → inc12 u.p0 = a →
    (fetchBytes u.nextDraws).1.head? = some s.ac

/-! ## Memory reference instructions (spec/41_memory_reference.md) -/

/-- LD, AND, OR, XOR: their encodings, and AC gets the byte read at the effective address, or its bitwise combination with
the old AC; nothing else changes beyond the address computation and the read (R130, R132 to R134). -/
def Obligations.LoadAndLogicResults : Prop :=
  ∀ (m : IndexMode) (p : Ptr) (d : Byte) (s : State), MemFields.wellFormed m p = true →
    ∃ a t, eaMem m p d s = some (a, t) ∧
      let v := (dataRead a t).1
      let u := (dataRead a t).2
      (encode (.ld m p d) = [0b11000#5 ++ m.toBit ++ p.toBits, d] ∧ exec (.ld m p d) s = .next { u with ac := v }) ∧
      (encode (.and m p d) = [0b11010#5 ++ m.toBit ++ p.toBits, d] ∧
        exec (.and m p d) s = .next { u with ac := s.ac &&& v }) ∧
      (encode (.or m p d) = [0b11011#5 ++ m.toBit ++ p.toBits, d] ∧
        exec (.or m p d) s = .next { u with ac := s.ac ||| v }) ∧
      (encode (.xor m p d) = [0b11100#5 ++ m.toBit ++ p.toBits, d] ∧
        exec (.xor m p d) s = .next { u with ac := s.ac ^^^ v })

/-- ST: the write of AC at the effective address, after the address computation; AC and the flags unchanged (R131). -/
def Obligations.StoreResult : Prop :=
  ∀ (m : IndexMode) (p : Ptr) (d : Byte) (s : State), MemFields.wellFormed m p = true →
    ∃ a t, eaMem m p d s = some (a, t) ∧ exec (.st m p d) s = .next (memWrite a s.ac t) ∧
      (memWrite a s.ac t).ac = s.ac ∧ (memWrite a s.ac t).sr = s.sr

/-- ST, ILD, DLD: every address but those of the effective address's place (itself, and on a platform that does not decode
every page bit its images in other pages) reads as before, and those, in RAM, read the byte stored (R131, R160, R161,
R53, R51). -/
def Obligations.StoringFrame : Prop :=
  ∀ (m : IndexMode) (p : Ptr) (d : Byte) (s : State), Memory.wf s.mem = true →
    (∀ a t u, eaMem m p d s = some (a, t) → exec (.st m p d) s = .next u →
      (∀ b : Word, s.place b ≠ s.place a → u.byteAt b = s.byteAt b) ∧
      (s.kindOf a = .ram → ∀ b : Word, s.place b = s.place a → u.byteAt b = s.ac)) ∧
    (∀ u, exec (.ild p d) s = .next u ∨ exec (.dld p d) s = .next u →
      (∀ b : Word, s.place b ≠ s.place (eaPlain p d s) → u.byteAt b = s.byteAt b) ∧
      (s.kindOf (eaPlain p d s) = .ram → ∀ b : Word, s.place b = s.place (eaPlain p d s) → u.byteAt b = u.ac))

/-- A push by `ST @-1(p)` and a pop by `LD @1(p)` give AC and the pointer back, in RAM, whatever page offset the
pointer has (R115, R130, R131). -/
def Obligations.PushThenPop : Prop :=
  ∀ (p : Ptr) (s : State), p ≠ .p0 → Memory.wf s.mem = true → s.kindOf (add12 (s.ptr p) (-1)) = .ram →
    ∃ t u, exec (.st .auto p 0xFF#8) s = .next t ∧ t.ptr p = add12 (s.ptr p) (-1) ∧
      ∀ x : Byte, exec (.ld .auto p 0x01#8) { t with ac := x } = .next u ∧ u.ac = s.ac ∧ u.ptr p = s.ptr p

/-! ## Sums (spec/40_addressing_and_alu.md R118 to R120) -/

/-- ADD, ADI, ADE: AC modulo 256, CY/L the unsigned carry, OV the signed overflow, nothing else (R118, R135, R144, R180;
which flags: D9, G4). -/
def Obligations.BinaryAdds : Prop :=
  (∀ (m : IndexMode) (p : Ptr) (d : Byte) (s : State), MemFields.wellFormed m p = true →
    ∃ a t u, eaMem m p d s = some (a, t) ∧ exec (.add m p d) s = .next u ∧
      BinaryAddEffect (dataRead a t).1 (dataRead a t).2 u) ∧
  (∀ (d : Byte) (s : State), ∃ u, exec (.adi d) s = .next u ∧ BinaryAddEffect d s u) ∧
  (∀ s : State, ∃ u, exec .ade s = .next u ∧ BinaryAddEffect s.e s u)

/-- CAD, CAI, CAE: `AC - b - 1 + CY/L` modulo 256, CY/L set when there is no borrow, OV the signed overflow, nothing
else (R119, with R118, R136, R145, R181; which flags are written rests on the spec's D9 and G4, entry 6). -/
def Obligations.ComplementAdds : Prop :=
  (∀ (m : IndexMode) (p : Ptr) (d : Byte) (s : State), MemFields.wellFormed m p = true →
    ∃ a t u, eaMem m p d s = some (a, t) ∧ exec (.cad m p d) s = .next u ∧
      ComplementAddEffect (dataRead a t).1 (dataRead a t).2 u) ∧
  (∀ (d : Byte) (s : State), ∃ u, exec (.cai d) s = .next u ∧ ComplementAddEffect d s u) ∧
  (∀ s : State, ∃ u, exec .cae s = .next u ∧ ComplementAddEffect s.e s u)

/-- With CY/L set, CAI is in effect a subtraction: AC - d, and CY/L afterwards says there was no borrow (R119). -/
def Obligations.ComplementAddSubtracts : Prop :=
  ∀ (d : Byte) (s : State), s.sr.cyl = true →
    ∃ u, exec (.cai d) s = .next u ∧ u.ac = s.ac - d ∧ (u.sr.cyl = true ↔ d.toNat ≤ s.ac.toNat)

/-- DAD, DAI, DAE on decimal digits: the decimal sum and carry, OV and everything else unchanged (R120, R137, R146, R182;
flags D9, G18). -/
def Obligations.DecimalAdds : Prop :=
  (∀ (m : IndexMode) (p : Ptr) (d : Byte) (s : State) (a : Word) (t : State), eaMem m p d s = some (a, t) →
    isBcd s.ac = true → isBcd (dataRead a t).1 = true →
    ∃ u, exec (.dad m p d) s = .next u ∧ DecimalAddEffect (dataRead a t).1 (dataRead a t).2 u) ∧
  (∀ (d : Byte) (s : State), isBcd s.ac = true → isBcd d = true →
    ∃ u, exec (.dai d) s = .next u ∧ DecimalAddEffect d s u) ∧
  (∀ s : State, isBcd s.ac = true → isBcd s.e = true → ∃ u, exec .dae s = .next u ∧ DecimalAddEffect s.e s u)

/-- DAD, DAI, DAE with a nibble above 9 still complete: AC and CY/L are the step's draws, for every value of them, OV and
everything else unchanged (R120; the free values are the model's choice under DAD_NONBCD, D10, entry 2). -/
def Obligations.DecimalAddsOfOtherDigits : Prop :=
  (∀ (m : IndexMode) (p : Ptr) (d : Byte) (s : State) (a : Word) (t : State), eaMem m p d s = some (a, t) →
    (isBcd s.ac && isBcd (dataRead a t).1) = false →
    ∃ u, exec (.dad m p d) s = .next u ∧ DecimalDrawEffect (dataRead a t).2 u) ∧
  (∀ (d : Byte) (s : State), (isBcd s.ac && isBcd d) = false →
    ∃ u, exec (.dai d) s = .next u ∧ DecimalDrawEffect s u) ∧
  (∀ s : State, (isBcd s.ac && isBcd s.e) = false → ∃ u, exec .dae s = .next u ∧ DecimalDrawEffect s u)

/-! ## Immediate and E-register instructions (spec/42_immediate.md, spec/46_extension_register.md) -/

/-- LDI, ANI, ORI, XRI: their encodings, and AC from the second byte whatever E holds, nothing else (R140 to R143). -/
def Obligations.ImmediateLoadAndLogic : Prop :=
  ∀ (d : Byte) (s : State),
    (encode (.ldi d) = [0xC4#8, d] ∧ exec (.ldi d) s = .next { s with ac := d }) ∧
    (encode (.ani d) = [0xD4#8, d] ∧ exec (.ani d) s = .next { s with ac := s.ac &&& d }) ∧
    (encode (.ori d) = [0xDC#8, d] ∧ exec (.ori d) s = .next { s with ac := s.ac ||| d }) ∧
    (encode (.xri d) = [0xE4#8, d] ∧ exec (.xri d) s = .next { s with ac := s.ac ^^^ d })

/-- LDE, XAE, ANE, ORE, XRE: their encodings, and AC and E exchanged or AC combined with E, nothing else; two XAE restore
both registers, and XAE then LDE then XRE leave zero (R175 to R179). -/
def Obligations.ExtensionRegisterMoves : Prop :=
  ∀ s : State,
    (encode .lde = [0x40#8] ∧ exec .lde s = .next { s with ac := s.e }) ∧
    (encode .xae = [0x01#8] ∧ exec .xae s = .next { s with ac := s.e, e := s.ac }) ∧
    (encode .ane = [0x50#8] ∧ exec .ane s = .next { s with ac := s.ac &&& s.e }) ∧
    (encode .ore = [0x58#8] ∧ exec .ore s = .next { s with ac := s.ac ||| s.e }) ∧
    (encode .xre = [0x60#8] ∧ exec .xre s = .next { s with ac := s.ac ^^^ s.e }) ∧
    execTimes .xae 2 s = .next s ∧
    ∃ t u, exec .xae s = .next t ∧ exec .lde t = .next u ∧ u = { s with e := s.ac } ∧
      exec .xre u = .next { u with ac := 0x00#8 }

/-! ## Shifts and rotates (spec/43_shift_rotate.md) -/

/-- SR halves AC, bit 0 lost, zero in bit 7, CY/L untouched (R151; the zero: general knowledge). -/
def Obligations.ShiftRight : Prop :=
  ∀ s : State, ∃ u, exec .sr s = .next u ∧ u.ac.toNat = s.ac.toNat / 2 ∧ u = { s with ac := u.ac }

/-- SRL, RR, RRL: their encodings, and what enters bit 7 and CY/L; eight SRL with CY/L set fill AC with ones, eight RR
restore AC and nine RRL restore AC and CY/L (R152 to R154). -/
def Obligations.LinkShiftAndRotates : Prop :=
  (encode .srl = [0x1D#8] ∧ ∀ s : State, ∃ u, exec .srl s = .next u ∧
    u.ac.toNat = 128 * carryIn s + s.ac.toNat / 2 ∧ u = { s with ac := u.ac }) ∧
  (encode .rr = [0x1E#8] ∧ ∀ s : State, ∃ u, exec .rr s = .next u ∧
    u.ac.toNat = 128 * (s.ac.toNat % 2) + s.ac.toNat / 2 ∧ u = { s with ac := u.ac }) ∧
  (encode .rrl = [0x1F#8] ∧ ∀ s : State, ∃ u, exec .rrl s = .next u ∧
    u.ac.toNat = 128 * carryIn s + s.ac.toNat / 2 ∧ (u.sr.cyl = true ↔ s.ac.toNat % 2 = 1) ∧
    u = { s with ac := u.ac, sr := { s.sr with cyl := u.sr.cyl } }) ∧
  (∀ s : State, s.sr.cyl = true → execTimes .srl 8 s = .next { s with ac := 0xFF#8 }) ∧
  (∀ s : State, execTimes .rr 8 s = .next s) ∧
  (∀ s : State, execTimes .rrl 9 s = .next s)

/-- SIO: E shifted right with SIN entering bit 7, the old bit 0 on SOUT and in the event log, AC and flags untouched
(R150, R37; E rather than AC: C1, D11). -/
def Obligations.SerialInputOutput : Prop :=
  ∀ s : State, ∃ u, exec .sio s = .next u ∧
    u.e.toNat = 128 * s.inputs.serialIn.toNat + s.e.toNat / 2 ∧ (u.sout = true ↔ s.e.toNat % 2 = 1) ∧
    u = { s with e := u.e, sout := u.sout, events := s.events ++ [.serialOut u.sout] }

/-! ## Increment, decrement, branches -/

/-- ILD, DLD: their encodings; the byte read at the effective address plus or minus 1 modulo 256 goes to AC and to a
write of the same address, whatever the address is, and no flag or pointer changes (spec/44_increment_decrement.md R160,
R161). -/
def Obligations.IncrementAndDecrement : Prop :=
  ∀ (p : Ptr) (d : Byte) (s : State),
    let a := add12 (s.ptr p) (if d = 0x80#8 then s.e.toInt else d.toInt)
    let v := (dataRead a s).1
    (encode (.ild p d) = [0b101010#6 ++ p.toBits, d] ∧
      ∃ w : Byte, w.toNat = (v.toNat + 1) % 256 ∧
        exec (.ild p d) s = .next { memWrite a w (dataRead a s).2 with ac := w }) ∧
    (encode (.dld p d) = [0b101110#6 ++ p.toBits, d] ∧
      ∃ w : Byte, (w.toNat : Int) = ((v.toNat : Int) - 1) % 256 ∧
        exec (.dld p d) s = .next { memWrite a w (dataRead a s).2 with ac := w })

/-- JMP, JP, JZ, JNZ with a displacement byte other than 0x80: the PC gets pointer plus displacement when AC is anything,
0 or more as a signed number, 0, not 0; otherwise nothing changes (spec/45_branch.md R165 to R168, R117). -/
def Obligations.Branches : Prop :=
  ∀ (p : Ptr) (d : Byte) (s : State), d ≠ 0x80#8 →
    let t : State := { s with p0 := add12 (s.ptr p) d.toInt }
    exec (.jmp p d) s = .next t ∧
    exec (.jp p d) s = .next (if 0 ≤ s.ac.toInt then t else s) ∧
    exec (.jz p d) s = .next (if s.ac.toNat = 0 then t else s) ∧
    exec (.jnz p d) s = .next (if s.ac.toNat = 0 then s else t)

/-- The same four with the byte 0x80 complete too: either every such branch adds the signed E, or every one adds -128,
and one not taken changes nothing (R117; that it is one of the two is the model's choice under JUMP_DISP80, D7,
entry 1). -/
def Obligations.BranchesWithDisp80 : Prop :=
  ∃ k : State → Int, ((∀ s, k s = s.e.toInt) ∨ (∀ s, k s = -128)) ∧
    ∀ (p : Ptr) (s : State),
      let t : State := { s with p0 := add12 (s.ptr p) (k s) }
      exec (.jmp p 0x80#8) s = .next t ∧
      exec (.jp p 0x80#8) s = .next (if 0 ≤ s.ac.toInt then t else s) ∧
      exec (.jz p 0x80#8) s = .next (if s.ac.toNat = 0 then t else s) ∧
      exec (.jnz p 0x80#8) s = .next (if s.ac.toNat = 0 then s else t)

/-! ## Pointer-register instructions (spec/47_pointer_register.md) -/

/-- XPAL and XPAH exchange AC with a half of any pointer, the PC included: AC gets the old half, the pointer keeps its
other half, nothing else changes (R190, R191; pointer 0: D30). -/
def Obligations.PointerHalfExchanges : Prop :=
  ∀ (p : Ptr) (s : State),
    (∃ u, exec (.xpal p) s = .next u ∧ u.ac.toNat = (s.ptr p).toNat % 256 ∧
      (u.ptr p).toNat = 256 * ((s.ptr p).toNat / 256) + s.ac.toNat ∧
      u = { s.setPtr p (u.ptr p) with ac := u.ac }) ∧
    (∃ u, exec (.xpah p) s = .next u ∧ u.ac.toNat = (s.ptr p).toNat / 256 ∧
      (u.ptr p).toNat = 256 * s.ac.toNat + (s.ptr p).toNat % 256 ∧
      u = { s.setPtr p (u.ptr p) with ac := u.ac })

/-- XPPC exchanges all 16 bits of the PC and a pointer and changes nothing else, XPPC 0 changes nothing, and a later
XPPC with the same pointer, from wherever the PC then is, returns to the PC before the call (R192). -/
def Obligations.PointerPcExchange : Prop :=
  ∀ (p : Ptr) (s : State), encode (.xppc p) = [0b001111#6 ++ p.toBits] ∧
    ∃ u, exec (.xppc p) s = .next u ∧ u.p0 = s.ptr p ∧ u.ptr p = s.p0 ∧
      u = { s.setPtr p s.p0 with p0 := s.ptr p } ∧ (p = .p0 → u = s) ∧
      ∀ r w : State, p ≠ .p0 → r.ptr p = u.ptr p → exec (.xppc p) r = .next w →
        w.p0 = s.p0 ∧ w.ptr p = r.p0

/-! ## Other instructions (spec/48_miscellaneous.md) -/

/-- HALT records the H pulse and nothing else: no register changes and the processor goes on running (R200). -/
def Obligations.HaltOnlyPulses : Prop :=
  encode .halt = [0x00#8] ∧
    ∀ s : State, exec .halt s = .next { s with events := s.events ++ [.haltPulse] }

/-- NOP does nothing; CCL and SCL write CY/L and nothing else (R201 to R203). -/
def Obligations.NopAndCarryBit : Prop :=
  (encode .nop = [0x08#8] ∧ encode .ccl = [0x02#8] ∧ encode .scl = [0x03#8]) ∧
    ∀ s : State,
      exec .nop s = .next s ∧
      exec .ccl s = .next { s with sr := { s.sr with cyl := false } } ∧
      exec .scl s = .next { s with sr := { s.sr with cyl := true } }

/-- DINT clears IE and protects the very next check; IEN sets IE, and the next check then looks at SENSE A or, with
IEN_LATENCY = 1, is skipped (R204, R205, spec/60_exceptions.md R222, R227; both latencies: D18, entry 3). -/
def Obligations.InterruptEnableBit : Prop :=
  ∀ s : State,
    (∃ u, exec .dint s = .next u ∧ u = { s with sr := { s.sr with ie := false } } ∧
      interruptTaken u.nextDraws = false) ∧
    (∃ u, exec .ien s = .next u ∧
      u = { s with sr := { s.sr with ie := true }, ienPending := s.ienPending || Config.ienLatencyOne } ∧
      (s.ienPending = false →
        interruptTaken u.nextDraws = (u.nextDraws.inputs.senseAAtCheck && !Config.ienLatencyOne)))

/-- CSA: AC gets the stored bits of SR and the levels of the SENSE pins, SR and all else unchanged (R206). -/
def Obligations.CopyStatusToAc : Prop :=
  encode .csa = [0x06#8] ∧
    ∀ s : State, ∃ u, exec .csa s = .next u ∧ u = { s with ac := u.ac } ∧
      u.ac.getLsbD 7 = s.sr.cyl ∧ u.ac.getLsbD 6 = s.sr.ov ∧ u.ac.getLsbD 5 = s.inputs.senseB ∧
      u.ac.getLsbD 4 = s.inputs.senseA ∧ u.ac.getLsbD 3 = s.sr.ie ∧ u.ac.getLsbD 2 = s.sr.f2 ∧
      u.ac.getLsbD 1 = s.sr.f1 ∧ u.ac.getLsbD 0 = s.sr.f0

/-- CAS: the six stored bits from AC, the Flags event, a skipped check only when IE rises under IEN_LATENCY = 1, nothing
else (R207; AC[5:4] discarded: D12; latency: D18, entry 3). -/
def Obligations.CopyAcToStatus : Prop :=
  ∀ s : State, ∃ u, exec .cas s = .next u ∧
    u.sr = ⟨s.ac.getLsbD 7, s.ac.getLsbD 6, s.ac.getLsbD 3, s.ac.getLsbD 2, s.ac.getLsbD 1, s.ac.getLsbD 0⟩ ∧
    u.events = s.events ++ [.flags u.sr.f2 u.sr.f1 u.sr.f0] ∧
    (u.ienPending = true ↔
      s.ienPending = true ∨ (Config.ienLatencyOne = true ∧ u.sr.ie = true ∧ s.sr.ie = false)) ∧
    u = { s with sr := u.sr, events := u.events, ienPending := u.ienPending }

/-- After CAS, whatever the coming input levels, CSA returns AC with bits 5 and 4 replaced by the SENSE pins: those bits
are not storage (spec/10_state.md R26, R207; D12). -/
def Obligations.SenseBitsAreNotStorage : Prop :=
  ∀ (s : State) (script : List ScriptEntry) (tick : Nat), ∃ u w,
    exec .cas s = .next u ∧ exec .csa { u with script := script, tick := tick } = .next w ∧
    w.ac.toNat = (s.ac &&& 0xCF#8).toNat +
      32 * ({ u with script := script, tick := tick } : State).inputs.senseB.toNat +
      16 * ({ u with script := script, tick := tick } : State).inputs.senseA.toNat

/-- DLY leaves AC = 0xFF and records 13 + 2 AC + 514 count cycles, between 13 and 131593, nothing else (R208; AC: D13,
G11). The DelayStart event is optional in the spec (R208, R37): recording it is the model's choice, entries 12 and 18. -/
def Obligations.DelayLength : Prop :=
  ∀ (d : Byte) (s : State), ∃ n : Nat, n = 13 + 2 * s.ac.toNat + 514 * d.toNat ∧ 13 ≤ n ∧ n ≤ 131593 ∧
    exec (.dly d) s = .next { s with ac := 0xFF#8, events := s.events ++ [.delayStart n] }

/-! ## What an instruction leaves unchanged, over all instructions -/

/-- "No instruction other than those writes AC", and only XAE and SIO write E (spec/10_state.md R21, R22). -/
def Obligations.AcAndEOnlyByListed : Prop :=
  ∀ (i : Instr) (s t : State), exec i s = .next t →
    (mayWriteAc i = false → t.ac = s.ac) ∧ (mayWriteE i = false → t.e = s.e)

/-- The table of flag effects: an instruction outside a column leaves that bit of SR unchanged (R123; D9, G4). -/
def Obligations.FlagEffectTable : Prop :=
  ∀ (i : Instr) (s t : State), exec i s = .next t →
    (mayWriteCyl i = false → t.sr.cyl = s.sr.cyl) ∧ (mayWriteOv i = false → t.sr.ov = s.sr.ov) ∧
    (mayWriteIe i = false → t.sr.ie = s.sr.ie) ∧
    (mayWriteFlagOutputs i = false → t.sr.f2 = s.sr.f2 ∧ t.sr.f1 = s.sr.f1 ∧ t.sr.f0 = s.sr.f0)

/-- P1 to P3 change only by auto-indexing, XPAL, XPAH and XPPC on that pointer, the PC only by a branch, XPPC, XPAL 0 and
XPAH 0 (spec/10_state.md R28, R30, R33). -/
def Obligations.PointersOnlyByListed : Prop :=
  ∀ (i : Instr) (s t : State), exec i s = .next t →
    (∀ p : Ptr, p ≠ .p0 → mayWritePointer p i = false → t.ptr p = s.ptr p) ∧
    (mayWritePc i = false → t.p0 = s.p0)

/-- Every byte of memory is unchanged by every instruction but ST, ILD and DLD (spec/20_memory.md R52). -/
def Obligations.MemoryOnlyByStores : Prop :=
  ∀ (i : Instr) (s t : State), exec i s = .next t → mayWriteMemory i = false →
    ∀ a : Word, t.byteAt a = s.byteAt a

/-- No instruction changes `running`, the map, its page bits or the model's fields; SOUT changes only by SIO,
`ien_pending` only by IEN and CAS (spec/10_state.md R38, R37; spec/20_memory.md R59). -/
def Obligations.OtherStateOnlyByListed : Prop :=
  ∀ (i : Instr) (s t : State), exec i s = .next t →
    t.running = s.running ∧ t.memmap = s.memmap ∧ t.pageMask = s.pageMask ∧ t.script = s.script ∧ t.tick = s.tick ∧
    (i ≠ .sio → t.sout = s.sout) ∧ (i ≠ .ien → i ≠ .cas → t.ienPending = s.ienPending)

/-- Events are only ever added at the end, by every step (spec/10_state.md R37: in program order). -/
def Obligations.EventsOnlyAppended : Prop :=
  ∀ (s t : State), step s = .next t → ∃ new, t.events = s.events ++ new

/-- The page of the PC changes in a step only by NRST, by interrupt entry, or by XPPC, XPAH 0 or a branch through P1 to
P3; sequential execution and every other instruction stay in the page (spec/10_state.md R31; D5). Nothing is claimed of a
request with interrupts enabled while CONT holds the processor (spec/60_exceptions.md R236). -/
def Obligations.PageChangesOnlyBy : Prop :=
  ∀ (s t : State), s.running = true ∨ s.sr.ie = false ∨ s.inputs.senseAAtCheck = false →
    step s = .next t → pageOf t.p0 ≠ pageOf s.p0 →
    s.script.head? = some .nrst ∨
    (InstructionNext s ∧ (interruptTaken s = true ∨
      ∃ i rest, decode (fetchBytes (interruptCheck s)).1 = .ok (i, rest) ∧ mayChangePage i = true))

/-! ## The interrupt (spec/60_exceptions.md) -/

/-- The check takes the interrupt exactly when IE is set, SENSE A is high and no IEN is pending; it then clears IE and
exchanges PC and P3 and saves nothing else, otherwise it changes nothing but `ien_pending` (R221 to R224; D17). -/
def Obligations.InterruptEntry : Prop :=
  ∀ s : State,
    (s.sr.ie = true ∧ s.inputs.senseAAtCheck = true ∧ s.ienPending = false →
      interruptCheck s = { s with sr := { s.sr with ie := false }, p0 := s.p3, p3 := s.p0 }) ∧
    (s.sr.ie = false ∨ s.inputs.senseAAtCheck = false ∨ s.ienPending = true →
      interruptCheck s = { s with ienPending := false })

/-- When a step takes the interrupt, it executes the instruction fetched from `Inc12(old P3)` (R222, R224, R33; D17, D4),
of one byte or of two, where memory holds it: IE is clear, P3 holds the interrupted PC, and the PC the address of that
instruction's last byte. -/
def Obligations.InterruptedStepRunsHandler : Prop :=
  ∀ (s : State) (i : Instr), InstructionNext s → interruptTaken s = true → IsMemory s (inc12 s.p3) →
    (decode [s.byteAt (inc12 s.p3)] = .ok (i, []) →
      step s = finishStep (exec i { s with sr := { s.sr with ie := false }, p0 := inc12 s.p3, p3 := s.p0 })) ∧
    (IsMemory s (inc12 (inc12 s.p3)) →
      decode [s.byteAt (inc12 s.p3), s.byteAt (inc12 (inc12 s.p3))] = .ok (i, []) →
      step s = finishStep (exec i { s with sr := { s.sr with ie := false }, p0 := inc12 (inc12 s.p3), p3 := s.p0 }))

/-- The return is XPPC 3: from any later state whose P3 still holds the link, the PC is the interrupted one again, P3
holds the address of that XPPC, and SR, IE included, is not restored (R225; derived there). -/
def Obligations.InterruptReturn : Prop :=
  ∀ s r : State, interruptTaken s = true → r.p3 = (interruptCheck s).p3 →
    ∃ w, exec (.xppc .p3) r = .next w ∧ w.p0 = s.p0 ∧ w.p3 = r.p0 ∧ w.sr = r.sr ∧ w = interruptReturn r

/-! ## Reset, CONT, the outside -/

/-- The state after reset: every register of R39 zero, interrupts disabled, the Flags event (spec/10_state.md R39; D16). -/
def Obligations.ResetRegisters : Prop :=
  State.reset.ac = 0 ∧ State.reset.e = 0 ∧ State.reset.sr = ⟨false, false, false, false, false, false⟩ ∧
  (∀ p, State.reset.ptr p = 0) ∧ State.reset.ienPending = false ∧ State.reset.events = [.flags false false false]

/-- NRST, whatever the state and whether or not the processor runs: a step whose registers are those of R39, memory, map
and CONT unchanged, the Flags event recorded (spec/70_reset_and_hazards.md R260 to R262; D16; NRST as an entry of the
script is the model's form, entry 15). -/
def Obligations.NrstResets : Prop :=
  ∀ (s : State) (rest : List ScriptEntry), s.script = .nrst :: rest →
    ∃ t, step s = .next t ∧ t.ac = 0 ∧ t.e = 0 ∧ t.sr = ⟨false, false, false, false, false, false⟩ ∧
      (∀ p, t.ptr p = 0) ∧ t.ienPending = false ∧ t.running = s.running ∧ t.mem = s.mem ∧ t.memmap = s.memmap ∧
      t.pageMask = s.pageMask ∧
      t.events = s.events ++ [.flags false false false] ∧ t.script = rest

/-- While CONT holds the processor stopped, with interrupts disabled or SENSE A low, a step changes nothing of the
machine; a change of CONT changes `running` alone (spec/10_state.md R38, spec/60_exceptions.md R235; D26; the script is
the model's, entries 9 and 14). Nothing is claimed of a request with interrupts enabled while stopped (R236, D33). -/
def Obligations.StoppedByCont : Prop :=
  (∀ (s : State) (d : Inputs) (rest : List ScriptEntry), s.running = false → s.script = .draws d :: rest →
    s.sr.ie = false ∨ s.inputs.senseAAtCheck = false → step s = .next { s with script := rest }) ∧
  (∀ s : State, s.running = false → s.script = [] → s.sr.ie = false ∨ s.inputs.senseAAtCheck = false →
    step s = .next s) ∧
  (∀ (s : State) (b : Bool) (rest : List ScriptEntry), s.script = .cont b :: rest →
    step s = .next { s with running := b, script := rest })

/-- Another bus master's write between steps is a RAM write and changes nothing else of the processor
(spec/20_memory.md R66, R53; D28; between steps only: entry 16). -/
def Obligations.OtherMasterWrites : Prop :=
  ∀ (s : State) (a : Word) (v : Byte) (rest : List ScriptEntry), s.script = .otherMaster a v :: rest →
    Memory.wf s.mem = true →
    ∃ t, step s = .next t ∧ t = { s with mem := t.mem, script := rest } ∧
      ∀ b : Word, t.byteAt b = if s.place b = s.place a ∧ s.kindOf a = .ram then v else s.byteAt b

/-! ## The invariant -/

/-- Every step keeps the invariant: memory keeps its canonical form and lists only places, the flag outputs are those last
recorded, and a pending IEN is present only with IEN_LATENCY = 1 and IE set (R24, R37, R38, R51, R53; the form of memory
is the model's). -/
def Obligations.StepKeepsInv : Prop :=
  ∀ (s t : State), Inv s → step s = .next t → Inv t

/-- The state after reset has the invariant (R39). -/
def Obligations.ResetHasInv : Prop := Inv State.reset
end

