-- ==== Sys2Proof/Laws/Decode.lean ====
section
/-! SUPPORT. The decoder's equations, one per shape of its input. -/

namespace Sys2Proof

theorem isTwoByte_eq (op : Byte) : isTwoByte op = op.getLsbD 7 := by
  revert op; decide

@[simp] theorem decode_nil : decode [] = .error .truncated := rfl

/-- A one-byte instruction (R80). -/
theorem decode_oneByte {op : Byte} (rest : List Byte) (h : isTwoByte op = false) :
    decode (op :: rest) = (decodeOpcode op 0#8).map fun i => (i, rest) := by
  simp [decode, h]

/-- A two-byte instruction (R80). -/
theorem decode_twoByte {op : Byte} (d : Byte) (rest : List Byte) (h : isTwoByte op = true) :
    decode (op :: d :: rest) = (decodeOpcode op d).map fun i => (i, rest) := by
  simp [decode, h]

/-- A two-byte instruction cut short. -/
theorem decode_cutShort {op : Byte} (h : isTwoByte op = true) : decode [op] = .error .truncated := by
  simp [decode, h]

end Sys2Proof
end

