-- ==== Sys2Proof/Laws/State.lean ====
section
/-! SUPPORT. One lemma per field per update of State, so that no proof unfolds a record update. -/

namespace Sys2Proof.Machine

@[simp] theorem State.setAc_ac (s : State) (v : Byte) : (s.setAc v).ac = v := rfl
@[simp] theorem State.setAc_e (s : State) (v : Byte) : (s.setAc v).e = s.e := rfl
@[simp] theorem State.setAc_sr (s : State) (v : Byte) : (s.setAc v).sr = s.sr := rfl
@[simp] theorem State.setAc_p0 (s : State) (v : Byte) : (s.setAc v).p0 = s.p0 := rfl
@[simp] theorem State.setAc_p1 (s : State) (v : Byte) : (s.setAc v).p1 = s.p1 := rfl
@[simp] theorem State.setAc_p2 (s : State) (v : Byte) : (s.setAc v).p2 = s.p2 := rfl
@[simp] theorem State.setAc_p3 (s : State) (v : Byte) : (s.setAc v).p3 = s.p3 := rfl
@[simp] theorem State.setAc_running (s : State) (v : Byte) : (s.setAc v).running = s.running := rfl
@[simp] theorem State.setAc_ienPending (s : State) (v : Byte) : (s.setAc v).ienPending = s.ienPending := rfl
@[simp] theorem State.setAc_sout (s : State) (v : Byte) : (s.setAc v).sout = s.sout := rfl
@[simp] theorem State.setAc_mem (s : State) (v : Byte) : (s.setAc v).mem = s.mem := rfl
@[simp] theorem State.setAc_memmap (s : State) (v : Byte) : (s.setAc v).memmap = s.memmap := rfl
@[simp] theorem State.setAc_pageMask (s : State) (v : Byte) : (s.setAc v).pageMask = s.pageMask := rfl
@[simp] theorem State.setAc_events (s : State) (v : Byte) : (s.setAc v).events = s.events := rfl
@[simp] theorem State.setAc_script (s : State) (v : Byte) : (s.setAc v).script = s.script := rfl
@[simp] theorem State.setAc_tick (s : State) (v : Byte) : (s.setAc v).tick = s.tick := rfl
@[simp] theorem State.setAc_inputs (s : State) (v : Byte) : (s.setAc v).inputs = s.inputs := rfl
@[simp] theorem State.setAc_byteAt (s : State) (v : Byte) (a : Word) : (s.setAc v).byteAt a = s.byteAt a := rfl
@[simp] theorem State.setAc_kindOf (s : State) (v : Byte) (a : Word) : (s.setAc v).kindOf a = s.kindOf a := rfl
@[simp] theorem State.setAc_place (s : State) (v : Byte) (a : Word) : (s.setAc v).place a = s.place a := rfl
@[simp] theorem State.setAc_ptr (s : State) (v : Byte) (q : Ptr) : (s.setAc v).ptr q = s.ptr q := by cases q <;> rfl

@[simp] theorem State.setE_ac (s : State) (v : Byte) : (s.setE v).ac = s.ac := rfl
@[simp] theorem State.setE_e (s : State) (v : Byte) : (s.setE v).e = v := rfl
@[simp] theorem State.setE_sr (s : State) (v : Byte) : (s.setE v).sr = s.sr := rfl
@[simp] theorem State.setE_p0 (s : State) (v : Byte) : (s.setE v).p0 = s.p0 := rfl
@[simp] theorem State.setE_p1 (s : State) (v : Byte) : (s.setE v).p1 = s.p1 := rfl
@[simp] theorem State.setE_p2 (s : State) (v : Byte) : (s.setE v).p2 = s.p2 := rfl
@[simp] theorem State.setE_p3 (s : State) (v : Byte) : (s.setE v).p3 = s.p3 := rfl
@[simp] theorem State.setE_running (s : State) (v : Byte) : (s.setE v).running = s.running := rfl
@[simp] theorem State.setE_ienPending (s : State) (v : Byte) : (s.setE v).ienPending = s.ienPending := rfl
@[simp] theorem State.setE_sout (s : State) (v : Byte) : (s.setE v).sout = s.sout := rfl
@[simp] theorem State.setE_mem (s : State) (v : Byte) : (s.setE v).mem = s.mem := rfl
@[simp] theorem State.setE_memmap (s : State) (v : Byte) : (s.setE v).memmap = s.memmap := rfl
@[simp] theorem State.setE_pageMask (s : State) (v : Byte) : (s.setE v).pageMask = s.pageMask := rfl
@[simp] theorem State.setE_events (s : State) (v : Byte) : (s.setE v).events = s.events := rfl
@[simp] theorem State.setE_script (s : State) (v : Byte) : (s.setE v).script = s.script := rfl
@[simp] theorem State.setE_tick (s : State) (v : Byte) : (s.setE v).tick = s.tick := rfl
@[simp] theorem State.setE_inputs (s : State) (v : Byte) : (s.setE v).inputs = s.inputs := rfl
@[simp] theorem State.setE_byteAt (s : State) (v : Byte) (a : Word) : (s.setE v).byteAt a = s.byteAt a := rfl
@[simp] theorem State.setE_kindOf (s : State) (v : Byte) (a : Word) : (s.setE v).kindOf a = s.kindOf a := rfl
@[simp] theorem State.setE_place (s : State) (v : Byte) (a : Word) : (s.setE v).place a = s.place a := rfl
@[simp] theorem State.setE_ptr (s : State) (v : Byte) (q : Ptr) : (s.setE v).ptr q = s.ptr q := by cases q <;> rfl

@[simp] theorem State.setSr_ac (s : State) (v : Status) : (s.setSr v).ac = s.ac := rfl
@[simp] theorem State.setSr_e (s : State) (v : Status) : (s.setSr v).e = s.e := rfl
@[simp] theorem State.setSr_sr (s : State) (v : Status) : (s.setSr v).sr = v := rfl
@[simp] theorem State.setSr_p0 (s : State) (v : Status) : (s.setSr v).p0 = s.p0 := rfl
@[simp] theorem State.setSr_p1 (s : State) (v : Status) : (s.setSr v).p1 = s.p1 := rfl
@[simp] theorem State.setSr_p2 (s : State) (v : Status) : (s.setSr v).p2 = s.p2 := rfl
@[simp] theorem State.setSr_p3 (s : State) (v : Status) : (s.setSr v).p3 = s.p3 := rfl
@[simp] theorem State.setSr_running (s : State) (v : Status) : (s.setSr v).running = s.running := rfl
@[simp] theorem State.setSr_ienPending (s : State) (v : Status) : (s.setSr v).ienPending = s.ienPending := rfl
@[simp] theorem State.setSr_sout (s : State) (v : Status) : (s.setSr v).sout = s.sout := rfl
@[simp] theorem State.setSr_mem (s : State) (v : Status) : (s.setSr v).mem = s.mem := rfl
@[simp] theorem State.setSr_memmap (s : State) (v : Status) : (s.setSr v).memmap = s.memmap := rfl
@[simp] theorem State.setSr_pageMask (s : State) (v : Status) : (s.setSr v).pageMask = s.pageMask := rfl
@[simp] theorem State.setSr_events (s : State) (v : Status) : (s.setSr v).events = s.events := rfl
@[simp] theorem State.setSr_script (s : State) (v : Status) : (s.setSr v).script = s.script := rfl
@[simp] theorem State.setSr_tick (s : State) (v : Status) : (s.setSr v).tick = s.tick := rfl
@[simp] theorem State.setSr_inputs (s : State) (v : Status) : (s.setSr v).inputs = s.inputs := rfl
@[simp] theorem State.setSr_byteAt (s : State) (v : Status) (a : Word) : (s.setSr v).byteAt a = s.byteAt a := rfl
@[simp] theorem State.setSr_kindOf (s : State) (v : Status) (a : Word) : (s.setSr v).kindOf a = s.kindOf a := rfl
@[simp] theorem State.setSr_place (s : State) (v : Status) (a : Word) : (s.setSr v).place a = s.place a := rfl
@[simp] theorem State.setSr_ptr (s : State) (v : Status) (q : Ptr) : (s.setSr v).ptr q = s.ptr q := by cases q <;> rfl

@[simp] theorem State.setCyl_ac (s : State) (b : Bool) : (s.setCyl b).ac = s.ac := rfl
@[simp] theorem State.setCyl_e (s : State) (b : Bool) : (s.setCyl b).e = s.e := rfl
@[simp] theorem State.setCyl_sr (s : State) (b : Bool) : (s.setCyl b).sr = { s.sr with cyl := b } := rfl
@[simp] theorem State.setCyl_p0 (s : State) (b : Bool) : (s.setCyl b).p0 = s.p0 := rfl
@[simp] theorem State.setCyl_p1 (s : State) (b : Bool) : (s.setCyl b).p1 = s.p1 := rfl
@[simp] theorem State.setCyl_p2 (s : State) (b : Bool) : (s.setCyl b).p2 = s.p2 := rfl
@[simp] theorem State.setCyl_p3 (s : State) (b : Bool) : (s.setCyl b).p3 = s.p3 := rfl
@[simp] theorem State.setCyl_running (s : State) (b : Bool) : (s.setCyl b).running = s.running := rfl
@[simp] theorem State.setCyl_ienPending (s : State) (b : Bool) : (s.setCyl b).ienPending = s.ienPending := rfl
@[simp] theorem State.setCyl_sout (s : State) (b : Bool) : (s.setCyl b).sout = s.sout := rfl
@[simp] theorem State.setCyl_mem (s : State) (b : Bool) : (s.setCyl b).mem = s.mem := rfl
@[simp] theorem State.setCyl_memmap (s : State) (b : Bool) : (s.setCyl b).memmap = s.memmap := rfl
@[simp] theorem State.setCyl_pageMask (s : State) (b : Bool) : (s.setCyl b).pageMask = s.pageMask := rfl
@[simp] theorem State.setCyl_events (s : State) (b : Bool) : (s.setCyl b).events = s.events := rfl
@[simp] theorem State.setCyl_script (s : State) (b : Bool) : (s.setCyl b).script = s.script := rfl
@[simp] theorem State.setCyl_tick (s : State) (b : Bool) : (s.setCyl b).tick = s.tick := rfl
@[simp] theorem State.setCyl_inputs (s : State) (b : Bool) : (s.setCyl b).inputs = s.inputs := rfl
@[simp] theorem State.setCyl_byteAt (s : State) (b : Bool) (a : Word) : (s.setCyl b).byteAt a = s.byteAt a := rfl
@[simp] theorem State.setCyl_kindOf (s : State) (b : Bool) (a : Word) : (s.setCyl b).kindOf a = s.kindOf a := rfl
@[simp] theorem State.setCyl_place (s : State) (b : Bool) (a : Word) : (s.setCyl b).place a = s.place a := rfl
@[simp] theorem State.setCyl_ptr (s : State) (b : Bool) (q : Ptr) : (s.setCyl b).ptr q = s.ptr q := by cases q <;> rfl

@[simp] theorem State.setOv_ac (s : State) (b : Bool) : (s.setOv b).ac = s.ac := rfl
@[simp] theorem State.setOv_e (s : State) (b : Bool) : (s.setOv b).e = s.e := rfl
@[simp] theorem State.setOv_sr (s : State) (b : Bool) : (s.setOv b).sr = { s.sr with ov := b } := rfl
@[simp] theorem State.setOv_p0 (s : State) (b : Bool) : (s.setOv b).p0 = s.p0 := rfl
@[simp] theorem State.setOv_p1 (s : State) (b : Bool) : (s.setOv b).p1 = s.p1 := rfl
@[simp] theorem State.setOv_p2 (s : State) (b : Bool) : (s.setOv b).p2 = s.p2 := rfl
@[simp] theorem State.setOv_p3 (s : State) (b : Bool) : (s.setOv b).p3 = s.p3 := rfl
@[simp] theorem State.setOv_running (s : State) (b : Bool) : (s.setOv b).running = s.running := rfl
@[simp] theorem State.setOv_ienPending (s : State) (b : Bool) : (s.setOv b).ienPending = s.ienPending := rfl
@[simp] theorem State.setOv_sout (s : State) (b : Bool) : (s.setOv b).sout = s.sout := rfl
@[simp] theorem State.setOv_mem (s : State) (b : Bool) : (s.setOv b).mem = s.mem := rfl
@[simp] theorem State.setOv_memmap (s : State) (b : Bool) : (s.setOv b).memmap = s.memmap := rfl
@[simp] theorem State.setOv_pageMask (s : State) (b : Bool) : (s.setOv b).pageMask = s.pageMask := rfl
@[simp] theorem State.setOv_events (s : State) (b : Bool) : (s.setOv b).events = s.events := rfl
@[simp] theorem State.setOv_script (s : State) (b : Bool) : (s.setOv b).script = s.script := rfl
@[simp] theorem State.setOv_tick (s : State) (b : Bool) : (s.setOv b).tick = s.tick := rfl
@[simp] theorem State.setOv_inputs (s : State) (b : Bool) : (s.setOv b).inputs = s.inputs := rfl
@[simp] theorem State.setOv_byteAt (s : State) (b : Bool) (a : Word) : (s.setOv b).byteAt a = s.byteAt a := rfl
@[simp] theorem State.setOv_kindOf (s : State) (b : Bool) (a : Word) : (s.setOv b).kindOf a = s.kindOf a := rfl
@[simp] theorem State.setOv_place (s : State) (b : Bool) (a : Word) : (s.setOv b).place a = s.place a := rfl
@[simp] theorem State.setOv_ptr (s : State) (b : Bool) (q : Ptr) : (s.setOv b).ptr q = s.ptr q := by cases q <;> rfl

@[simp] theorem State.setIe_ac (s : State) (b : Bool) : (s.setIe b).ac = s.ac := rfl
@[simp] theorem State.setIe_e (s : State) (b : Bool) : (s.setIe b).e = s.e := rfl
@[simp] theorem State.setIe_sr (s : State) (b : Bool) : (s.setIe b).sr = { s.sr with ie := b } := rfl
@[simp] theorem State.setIe_p0 (s : State) (b : Bool) : (s.setIe b).p0 = s.p0 := rfl
@[simp] theorem State.setIe_p1 (s : State) (b : Bool) : (s.setIe b).p1 = s.p1 := rfl
@[simp] theorem State.setIe_p2 (s : State) (b : Bool) : (s.setIe b).p2 = s.p2 := rfl
@[simp] theorem State.setIe_p3 (s : State) (b : Bool) : (s.setIe b).p3 = s.p3 := rfl
@[simp] theorem State.setIe_running (s : State) (b : Bool) : (s.setIe b).running = s.running := rfl
@[simp] theorem State.setIe_ienPending (s : State) (b : Bool) : (s.setIe b).ienPending = s.ienPending := rfl
@[simp] theorem State.setIe_sout (s : State) (b : Bool) : (s.setIe b).sout = s.sout := rfl
@[simp] theorem State.setIe_mem (s : State) (b : Bool) : (s.setIe b).mem = s.mem := rfl
@[simp] theorem State.setIe_memmap (s : State) (b : Bool) : (s.setIe b).memmap = s.memmap := rfl
@[simp] theorem State.setIe_pageMask (s : State) (b : Bool) : (s.setIe b).pageMask = s.pageMask := rfl
@[simp] theorem State.setIe_events (s : State) (b : Bool) : (s.setIe b).events = s.events := rfl
@[simp] theorem State.setIe_script (s : State) (b : Bool) : (s.setIe b).script = s.script := rfl
@[simp] theorem State.setIe_tick (s : State) (b : Bool) : (s.setIe b).tick = s.tick := rfl
@[simp] theorem State.setIe_inputs (s : State) (b : Bool) : (s.setIe b).inputs = s.inputs := rfl
@[simp] theorem State.setIe_byteAt (s : State) (b : Bool) (a : Word) : (s.setIe b).byteAt a = s.byteAt a := rfl
@[simp] theorem State.setIe_kindOf (s : State) (b : Bool) (a : Word) : (s.setIe b).kindOf a = s.kindOf a := rfl
@[simp] theorem State.setIe_place (s : State) (b : Bool) (a : Word) : (s.setIe b).place a = s.place a := rfl
@[simp] theorem State.setIe_ptr (s : State) (b : Bool) (q : Ptr) : (s.setIe b).ptr q = s.ptr q := by cases q <;> rfl

@[simp] theorem State.setPc_ac (s : State) (v : Word) : (s.setPc v).ac = s.ac := rfl
@[simp] theorem State.setPc_e (s : State) (v : Word) : (s.setPc v).e = s.e := rfl
@[simp] theorem State.setPc_sr (s : State) (v : Word) : (s.setPc v).sr = s.sr := rfl
@[simp] theorem State.setPc_p0 (s : State) (v : Word) : (s.setPc v).p0 = v := rfl
@[simp] theorem State.setPc_p1 (s : State) (v : Word) : (s.setPc v).p1 = s.p1 := rfl
@[simp] theorem State.setPc_p2 (s : State) (v : Word) : (s.setPc v).p2 = s.p2 := rfl
@[simp] theorem State.setPc_p3 (s : State) (v : Word) : (s.setPc v).p3 = s.p3 := rfl
@[simp] theorem State.setPc_running (s : State) (v : Word) : (s.setPc v).running = s.running := rfl
@[simp] theorem State.setPc_ienPending (s : State) (v : Word) : (s.setPc v).ienPending = s.ienPending := rfl
@[simp] theorem State.setPc_sout (s : State) (v : Word) : (s.setPc v).sout = s.sout := rfl
@[simp] theorem State.setPc_mem (s : State) (v : Word) : (s.setPc v).mem = s.mem := rfl
@[simp] theorem State.setPc_memmap (s : State) (v : Word) : (s.setPc v).memmap = s.memmap := rfl
@[simp] theorem State.setPc_pageMask (s : State) (v : Word) : (s.setPc v).pageMask = s.pageMask := rfl
@[simp] theorem State.setPc_events (s : State) (v : Word) : (s.setPc v).events = s.events := rfl
@[simp] theorem State.setPc_script (s : State) (v : Word) : (s.setPc v).script = s.script := rfl
@[simp] theorem State.setPc_tick (s : State) (v : Word) : (s.setPc v).tick = s.tick := rfl
@[simp] theorem State.setPc_inputs (s : State) (v : Word) : (s.setPc v).inputs = s.inputs := rfl
@[simp] theorem State.setPc_byteAt (s : State) (v : Word) (a : Word) : (s.setPc v).byteAt a = s.byteAt a := rfl
@[simp] theorem State.setPc_kindOf (s : State) (v : Word) (a : Word) : (s.setPc v).kindOf a = s.kindOf a := rfl
@[simp] theorem State.setPc_place (s : State) (v : Word) (a : Word) : (s.setPc v).place a = s.place a := rfl

@[simp] theorem State.setSout_ac (s : State) (b : Bool) : (s.setSout b).ac = s.ac := rfl
@[simp] theorem State.setSout_e (s : State) (b : Bool) : (s.setSout b).e = s.e := rfl
@[simp] theorem State.setSout_sr (s : State) (b : Bool) : (s.setSout b).sr = s.sr := rfl
@[simp] theorem State.setSout_p0 (s : State) (b : Bool) : (s.setSout b).p0 = s.p0 := rfl
@[simp] theorem State.setSout_p1 (s : State) (b : Bool) : (s.setSout b).p1 = s.p1 := rfl
@[simp] theorem State.setSout_p2 (s : State) (b : Bool) : (s.setSout b).p2 = s.p2 := rfl
@[simp] theorem State.setSout_p3 (s : State) (b : Bool) : (s.setSout b).p3 = s.p3 := rfl
@[simp] theorem State.setSout_running (s : State) (b : Bool) : (s.setSout b).running = s.running := rfl
@[simp] theorem State.setSout_ienPending (s : State) (b : Bool) : (s.setSout b).ienPending = s.ienPending := rfl
@[simp] theorem State.setSout_sout (s : State) (b : Bool) : (s.setSout b).sout = b := rfl
@[simp] theorem State.setSout_mem (s : State) (b : Bool) : (s.setSout b).mem = s.mem := rfl
@[simp] theorem State.setSout_memmap (s : State) (b : Bool) : (s.setSout b).memmap = s.memmap := rfl
@[simp] theorem State.setSout_pageMask (s : State) (b : Bool) : (s.setSout b).pageMask = s.pageMask := rfl
@[simp] theorem State.setSout_events (s : State) (b : Bool) : (s.setSout b).events = s.events := rfl
@[simp] theorem State.setSout_script (s : State) (b : Bool) : (s.setSout b).script = s.script := rfl
@[simp] theorem State.setSout_tick (s : State) (b : Bool) : (s.setSout b).tick = s.tick := rfl
@[simp] theorem State.setSout_inputs (s : State) (b : Bool) : (s.setSout b).inputs = s.inputs := rfl
@[simp] theorem State.setSout_byteAt (s : State) (b : Bool) (a : Word) : (s.setSout b).byteAt a = s.byteAt a := rfl
@[simp] theorem State.setSout_kindOf (s : State) (b : Bool) (a : Word) : (s.setSout b).kindOf a = s.kindOf a := rfl
@[simp] theorem State.setSout_place (s : State) (b : Bool) (a : Word) : (s.setSout b).place a = s.place a := rfl
@[simp] theorem State.setSout_ptr (s : State) (b : Bool) (q : Ptr) : (s.setSout b).ptr q = s.ptr q := by cases q <;> rfl

@[simp] theorem State.setIenPending_ac (s : State) (b : Bool) : (s.setIenPending b).ac = s.ac := rfl
@[simp] theorem State.setIenPending_e (s : State) (b : Bool) : (s.setIenPending b).e = s.e := rfl
@[simp] theorem State.setIenPending_sr (s : State) (b : Bool) : (s.setIenPending b).sr = s.sr := rfl
@[simp] theorem State.setIenPending_p0 (s : State) (b : Bool) : (s.setIenPending b).p0 = s.p0 := rfl
@[simp] theorem State.setIenPending_p1 (s : State) (b : Bool) : (s.setIenPending b).p1 = s.p1 := rfl
@[simp] theorem State.setIenPending_p2 (s : State) (b : Bool) : (s.setIenPending b).p2 = s.p2 := rfl
@[simp] theorem State.setIenPending_p3 (s : State) (b : Bool) : (s.setIenPending b).p3 = s.p3 := rfl
@[simp] theorem State.setIenPending_running (s : State) (b : Bool) : (s.setIenPending b).running = s.running := rfl
@[simp] theorem State.setIenPending_ienPending (s : State) (b : Bool) : (s.setIenPending b).ienPending = b := rfl
@[simp] theorem State.setIenPending_sout (s : State) (b : Bool) : (s.setIenPending b).sout = s.sout := rfl
@[simp] theorem State.setIenPending_mem (s : State) (b : Bool) : (s.setIenPending b).mem = s.mem := rfl
@[simp] theorem State.setIenPending_memmap (s : State) (b : Bool) : (s.setIenPending b).memmap = s.memmap := rfl
@[simp] theorem State.setIenPending_pageMask (s : State) (b : Bool) : (s.setIenPending b).pageMask = s.pageMask := rfl
@[simp] theorem State.setIenPending_events (s : State) (b : Bool) : (s.setIenPending b).events = s.events := rfl
@[simp] theorem State.setIenPending_script (s : State) (b : Bool) : (s.setIenPending b).script = s.script := rfl
@[simp] theorem State.setIenPending_tick (s : State) (b : Bool) : (s.setIenPending b).tick = s.tick := rfl
@[simp] theorem State.setIenPending_inputs (s : State) (b : Bool) : (s.setIenPending b).inputs = s.inputs := rfl
@[simp] theorem State.setIenPending_byteAt (s : State) (b : Bool) (a : Word) : (s.setIenPending b).byteAt a = s.byteAt a := rfl
@[simp] theorem State.setIenPending_kindOf (s : State) (b : Bool) (a : Word) : (s.setIenPending b).kindOf a = s.kindOf a := rfl
@[simp] theorem State.setIenPending_place (s : State) (b : Bool) (a : Word) : (s.setIenPending b).place a = s.place a := rfl
@[simp] theorem State.setIenPending_ptr (s : State) (b : Bool) (q : Ptr) : (s.setIenPending b).ptr q = s.ptr q := by cases q <;> rfl

@[simp] theorem State.setMem_ac (s : State) (m : Memory) : (s.setMem m).ac = s.ac := rfl
@[simp] theorem State.setMem_e (s : State) (m : Memory) : (s.setMem m).e = s.e := rfl
@[simp] theorem State.setMem_sr (s : State) (m : Memory) : (s.setMem m).sr = s.sr := rfl
@[simp] theorem State.setMem_p0 (s : State) (m : Memory) : (s.setMem m).p0 = s.p0 := rfl
@[simp] theorem State.setMem_p1 (s : State) (m : Memory) : (s.setMem m).p1 = s.p1 := rfl
@[simp] theorem State.setMem_p2 (s : State) (m : Memory) : (s.setMem m).p2 = s.p2 := rfl
@[simp] theorem State.setMem_p3 (s : State) (m : Memory) : (s.setMem m).p3 = s.p3 := rfl
@[simp] theorem State.setMem_running (s : State) (m : Memory) : (s.setMem m).running = s.running := rfl
@[simp] theorem State.setMem_ienPending (s : State) (m : Memory) : (s.setMem m).ienPending = s.ienPending := rfl
@[simp] theorem State.setMem_sout (s : State) (m : Memory) : (s.setMem m).sout = s.sout := rfl
@[simp] theorem State.setMem_mem (s : State) (m : Memory) : (s.setMem m).mem = m := rfl
@[simp] theorem State.setMem_memmap (s : State) (m : Memory) : (s.setMem m).memmap = s.memmap := rfl
@[simp] theorem State.setMem_pageMask (s : State) (m : Memory) : (s.setMem m).pageMask = s.pageMask := rfl
@[simp] theorem State.setMem_events (s : State) (m : Memory) : (s.setMem m).events = s.events := rfl
@[simp] theorem State.setMem_script (s : State) (m : Memory) : (s.setMem m).script = s.script := rfl
@[simp] theorem State.setMem_tick (s : State) (m : Memory) : (s.setMem m).tick = s.tick := rfl
@[simp] theorem State.setMem_inputs (s : State) (m : Memory) : (s.setMem m).inputs = s.inputs := rfl
@[simp] theorem State.setMem_kindOf (s : State) (m : Memory) (a : Word) : (s.setMem m).kindOf a = s.kindOf a := rfl
@[simp] theorem State.setMem_place (s : State) (m : Memory) (a : Word) : (s.setMem m).place a = s.place a := rfl
@[simp] theorem State.setMem_ptr (s : State) (m : Memory) (q : Ptr) : (s.setMem m).ptr q = s.ptr q := by cases q <;> rfl

@[simp] theorem State.emit_ac (s : State) (x : Event) : (s.emit x).ac = s.ac := rfl
@[simp] theorem State.emit_e (s : State) (x : Event) : (s.emit x).e = s.e := rfl
@[simp] theorem State.emit_sr (s : State) (x : Event) : (s.emit x).sr = s.sr := rfl
@[simp] theorem State.emit_p0 (s : State) (x : Event) : (s.emit x).p0 = s.p0 := rfl
@[simp] theorem State.emit_p1 (s : State) (x : Event) : (s.emit x).p1 = s.p1 := rfl
@[simp] theorem State.emit_p2 (s : State) (x : Event) : (s.emit x).p2 = s.p2 := rfl
@[simp] theorem State.emit_p3 (s : State) (x : Event) : (s.emit x).p3 = s.p3 := rfl
@[simp] theorem State.emit_running (s : State) (x : Event) : (s.emit x).running = s.running := rfl
@[simp] theorem State.emit_ienPending (s : State) (x : Event) : (s.emit x).ienPending = s.ienPending := rfl
@[simp] theorem State.emit_sout (s : State) (x : Event) : (s.emit x).sout = s.sout := rfl
@[simp] theorem State.emit_mem (s : State) (x : Event) : (s.emit x).mem = s.mem := rfl
@[simp] theorem State.emit_memmap (s : State) (x : Event) : (s.emit x).memmap = s.memmap := rfl
@[simp] theorem State.emit_pageMask (s : State) (x : Event) : (s.emit x).pageMask = s.pageMask := rfl
@[simp] theorem State.emit_events (s : State) (x : Event) : (s.emit x).events = s.events ++ [x] := rfl
@[simp] theorem State.emit_script (s : State) (x : Event) : (s.emit x).script = s.script := rfl
@[simp] theorem State.emit_tick (s : State) (x : Event) : (s.emit x).tick = s.tick := rfl
@[simp] theorem State.emit_inputs (s : State) (x : Event) : (s.emit x).inputs = s.inputs := rfl
@[simp] theorem State.emit_byteAt (s : State) (x : Event) (a : Word) : (s.emit x).byteAt a = s.byteAt a := rfl
@[simp] theorem State.emit_kindOf (s : State) (x : Event) (a : Word) : (s.emit x).kindOf a = s.kindOf a := rfl
@[simp] theorem State.emit_place (s : State) (x : Event) (a : Word) : (s.emit x).place a = s.place a := rfl
@[simp] theorem State.emit_ptr (s : State) (x : Event) (q : Ptr) : (s.emit x).ptr q = s.ptr q := by cases q <;> rfl

@[simp] theorem State.setRunning_ac (s : State) (b : Bool) : (s.setRunning b).ac = s.ac := rfl
@[simp] theorem State.setRunning_e (s : State) (b : Bool) : (s.setRunning b).e = s.e := rfl
@[simp] theorem State.setRunning_sr (s : State) (b : Bool) : (s.setRunning b).sr = s.sr := rfl
@[simp] theorem State.setRunning_p0 (s : State) (b : Bool) : (s.setRunning b).p0 = s.p0 := rfl
@[simp] theorem State.setRunning_p1 (s : State) (b : Bool) : (s.setRunning b).p1 = s.p1 := rfl
@[simp] theorem State.setRunning_p2 (s : State) (b : Bool) : (s.setRunning b).p2 = s.p2 := rfl
@[simp] theorem State.setRunning_p3 (s : State) (b : Bool) : (s.setRunning b).p3 = s.p3 := rfl
@[simp] theorem State.setRunning_running (s : State) (b : Bool) : (s.setRunning b).running = b := rfl
@[simp] theorem State.setRunning_ienPending (s : State) (b : Bool) : (s.setRunning b).ienPending = s.ienPending := rfl
@[simp] theorem State.setRunning_sout (s : State) (b : Bool) : (s.setRunning b).sout = s.sout := rfl
@[simp] theorem State.setRunning_mem (s : State) (b : Bool) : (s.setRunning b).mem = s.mem := rfl
@[simp] theorem State.setRunning_memmap (s : State) (b : Bool) : (s.setRunning b).memmap = s.memmap := rfl
@[simp] theorem State.setRunning_pageMask (s : State) (b : Bool) : (s.setRunning b).pageMask = s.pageMask := rfl
@[simp] theorem State.setRunning_events (s : State) (b : Bool) : (s.setRunning b).events = s.events := rfl
@[simp] theorem State.setRunning_script (s : State) (b : Bool) : (s.setRunning b).script = s.script := rfl
@[simp] theorem State.setRunning_tick (s : State) (b : Bool) : (s.setRunning b).tick = s.tick := rfl
@[simp] theorem State.setRunning_inputs (s : State) (b : Bool) : (s.setRunning b).inputs = s.inputs := rfl
@[simp] theorem State.setRunning_byteAt (s : State) (b : Bool) (a : Word) : (s.setRunning b).byteAt a = s.byteAt a := rfl
@[simp] theorem State.setRunning_kindOf (s : State) (b : Bool) (a : Word) : (s.setRunning b).kindOf a = s.kindOf a := rfl
@[simp] theorem State.setRunning_place (s : State) (b : Bool) (a : Word) : (s.setRunning b).place a = s.place a := rfl
@[simp] theorem State.setRunning_ptr (s : State) (b : Bool) (q : Ptr) : (s.setRunning b).ptr q = s.ptr q := by cases q <;> rfl

@[simp] theorem State.dropEntry_ac (s : State) : s.dropEntry.ac = s.ac := rfl
@[simp] theorem State.dropEntry_e (s : State) : s.dropEntry.e = s.e := rfl
@[simp] theorem State.dropEntry_sr (s : State) : s.dropEntry.sr = s.sr := rfl
@[simp] theorem State.dropEntry_p0 (s : State) : s.dropEntry.p0 = s.p0 := rfl
@[simp] theorem State.dropEntry_p1 (s : State) : s.dropEntry.p1 = s.p1 := rfl
@[simp] theorem State.dropEntry_p2 (s : State) : s.dropEntry.p2 = s.p2 := rfl
@[simp] theorem State.dropEntry_p3 (s : State) : s.dropEntry.p3 = s.p3 := rfl
@[simp] theorem State.dropEntry_running (s : State) : s.dropEntry.running = s.running := rfl
@[simp] theorem State.dropEntry_ienPending (s : State) : s.dropEntry.ienPending = s.ienPending := rfl
@[simp] theorem State.dropEntry_sout (s : State) : s.dropEntry.sout = s.sout := rfl
@[simp] theorem State.dropEntry_mem (s : State) : s.dropEntry.mem = s.mem := rfl
@[simp] theorem State.dropEntry_memmap (s : State) : s.dropEntry.memmap = s.memmap := rfl
@[simp] theorem State.dropEntry_pageMask (s : State) : s.dropEntry.pageMask = s.pageMask := rfl
@[simp] theorem State.dropEntry_events (s : State) : s.dropEntry.events = s.events := rfl
@[simp] theorem State.dropEntry_script (s : State) : s.dropEntry.script = s.script.tail := rfl
@[simp] theorem State.dropEntry_tick (s : State) : s.dropEntry.tick = s.tick := rfl
@[simp] theorem State.dropEntry_byteAt (s : State) (a : Word) : s.dropEntry.byteAt a = s.byteAt a := rfl
@[simp] theorem State.dropEntry_kindOf (s : State) (a : Word) : s.dropEntry.kindOf a = s.kindOf a := rfl
@[simp] theorem State.dropEntry_place (s : State) (a : Word) : s.dropEntry.place a = s.place a := rfl
@[simp] theorem State.dropEntry_ptr (s : State) (q : Ptr) : s.dropEntry.ptr q = s.ptr q := by cases q <;> rfl

@[simp] theorem State.nextDraws_ac (s : State) : s.nextDraws.ac = s.ac := rfl
@[simp] theorem State.nextDraws_e (s : State) : s.nextDraws.e = s.e := rfl
@[simp] theorem State.nextDraws_sr (s : State) : s.nextDraws.sr = s.sr := rfl
@[simp] theorem State.nextDraws_p0 (s : State) : s.nextDraws.p0 = s.p0 := rfl
@[simp] theorem State.nextDraws_p1 (s : State) : s.nextDraws.p1 = s.p1 := rfl
@[simp] theorem State.nextDraws_p2 (s : State) : s.nextDraws.p2 = s.p2 := rfl
@[simp] theorem State.nextDraws_p3 (s : State) : s.nextDraws.p3 = s.p3 := rfl
@[simp] theorem State.nextDraws_running (s : State) : s.nextDraws.running = s.running := rfl
@[simp] theorem State.nextDraws_ienPending (s : State) : s.nextDraws.ienPending = s.ienPending := rfl
@[simp] theorem State.nextDraws_sout (s : State) : s.nextDraws.sout = s.sout := rfl
@[simp] theorem State.nextDraws_mem (s : State) : s.nextDraws.mem = s.mem := rfl
@[simp] theorem State.nextDraws_memmap (s : State) : s.nextDraws.memmap = s.memmap := rfl
@[simp] theorem State.nextDraws_pageMask (s : State) : s.nextDraws.pageMask = s.pageMask := rfl
@[simp] theorem State.nextDraws_events (s : State) : s.nextDraws.events = s.events := rfl
@[simp] theorem State.nextDraws_script (s : State) : s.nextDraws.script = s.script.tail := rfl
@[simp] theorem State.nextDraws_tick (s : State) : s.nextDraws.tick = s.tick + 1 := rfl
@[simp] theorem State.nextDraws_byteAt (s : State) (a : Word) : s.nextDraws.byteAt a = s.byteAt a := rfl
@[simp] theorem State.nextDraws_kindOf (s : State) (a : Word) : s.nextDraws.kindOf a = s.kindOf a := rfl
@[simp] theorem State.nextDraws_place (s : State) (a : Word) : s.nextDraws.place a = s.place a := rfl
@[simp] theorem State.nextDraws_ptr (s : State) (q : Ptr) : s.nextDraws.ptr q = s.ptr q := by cases q <;> rfl

@[simp] theorem State.pc_eq (s : State) : s.pc = s.p0 := rfl
@[simp] theorem State.ptr_p0 (s : State) : s.ptr .p0 = s.p0 := rfl
@[simp] theorem State.ptr_p1 (s : State) : s.ptr .p1 = s.p1 := rfl
@[simp] theorem State.ptr_p2 (s : State) : s.ptr .p2 = s.p2 := rfl
@[simp] theorem State.ptr_p3 (s : State) : s.ptr .p3 = s.p3 := rfl
@[simp] theorem State.setPtr_p0_p0 (s : State) (v : Word) : (s.setPtr .p0 v).p0 = v := rfl
@[simp] theorem State.setPtr_p0_p1 (s : State) (v : Word) : (s.setPtr .p0 v).p1 = s.p1 := rfl
@[simp] theorem State.setPtr_p0_p2 (s : State) (v : Word) : (s.setPtr .p0 v).p2 = s.p2 := rfl
@[simp] theorem State.setPtr_p0_p3 (s : State) (v : Word) : (s.setPtr .p0 v).p3 = s.p3 := rfl
@[simp] theorem State.setPtr_p1_p0 (s : State) (v : Word) : (s.setPtr .p1 v).p0 = s.p0 := rfl
@[simp] theorem State.setPtr_p1_p1 (s : State) (v : Word) : (s.setPtr .p1 v).p1 = v := rfl
@[simp] theorem State.setPtr_p1_p2 (s : State) (v : Word) : (s.setPtr .p1 v).p2 = s.p2 := rfl
@[simp] theorem State.setPtr_p1_p3 (s : State) (v : Word) : (s.setPtr .p1 v).p3 = s.p3 := rfl
@[simp] theorem State.setPtr_p2_p0 (s : State) (v : Word) : (s.setPtr .p2 v).p0 = s.p0 := rfl
@[simp] theorem State.setPtr_p2_p1 (s : State) (v : Word) : (s.setPtr .p2 v).p1 = s.p1 := rfl
@[simp] theorem State.setPtr_p2_p2 (s : State) (v : Word) : (s.setPtr .p2 v).p2 = v := rfl
@[simp] theorem State.setPtr_p2_p3 (s : State) (v : Word) : (s.setPtr .p2 v).p3 = s.p3 := rfl
@[simp] theorem State.setPtr_p3_p0 (s : State) (v : Word) : (s.setPtr .p3 v).p0 = s.p0 := rfl
@[simp] theorem State.setPtr_p3_p1 (s : State) (v : Word) : (s.setPtr .p3 v).p1 = s.p1 := rfl
@[simp] theorem State.setPtr_p3_p2 (s : State) (v : Word) : (s.setPtr .p3 v).p2 = s.p2 := rfl
@[simp] theorem State.setPtr_p3_p3 (s : State) (v : Word) : (s.setPtr .p3 v).p3 = v := rfl
@[simp] theorem State.setPtr_ac (s : State) (p : Ptr) (v : Word) : (s.setPtr p v).ac = s.ac := by cases p <;> rfl
@[simp] theorem State.setPtr_e (s : State) (p : Ptr) (v : Word) : (s.setPtr p v).e = s.e := by cases p <;> rfl
@[simp] theorem State.setPtr_sr (s : State) (p : Ptr) (v : Word) : (s.setPtr p v).sr = s.sr := by cases p <;> rfl
@[simp] theorem State.setPtr_running (s : State) (p : Ptr) (v : Word) : (s.setPtr p v).running = s.running := by cases p <;> rfl
@[simp] theorem State.setPtr_ienPending (s : State) (p : Ptr) (v : Word) : (s.setPtr p v).ienPending = s.ienPending := by cases p <;> rfl
@[simp] theorem State.setPtr_sout (s : State) (p : Ptr) (v : Word) : (s.setPtr p v).sout = s.sout := by cases p <;> rfl
@[simp] theorem State.setPtr_mem (s : State) (p : Ptr) (v : Word) : (s.setPtr p v).mem = s.mem := by cases p <;> rfl
@[simp] theorem State.setPtr_memmap (s : State) (p : Ptr) (v : Word) : (s.setPtr p v).memmap = s.memmap := by cases p <;> rfl
@[simp] theorem State.setPtr_pageMask (s : State) (p : Ptr) (v : Word) : (s.setPtr p v).pageMask = s.pageMask := by cases p <;> rfl
@[simp] theorem State.setPtr_events (s : State) (p : Ptr) (v : Word) : (s.setPtr p v).events = s.events := by cases p <;> rfl
@[simp] theorem State.setPtr_script (s : State) (p : Ptr) (v : Word) : (s.setPtr p v).script = s.script := by cases p <;> rfl
@[simp] theorem State.setPtr_tick (s : State) (p : Ptr) (v : Word) : (s.setPtr p v).tick = s.tick := by cases p <;> rfl
@[simp] theorem State.setPtr_inputs (s : State) (p : Ptr) (v : Word) : (s.setPtr p v).inputs = s.inputs := by
  cases p <;> rfl
@[simp] theorem State.setPtr_byteAt (s : State) (p : Ptr) (v : Word) (a : Word) :
    (s.setPtr p v).byteAt a = s.byteAt a := by cases p <;> rfl
@[simp] theorem State.setPtr_kindOf (s : State) (p : Ptr) (v : Word) (a : Word) :
    (s.setPtr p v).kindOf a = s.kindOf a := by cases p <;> rfl
@[simp] theorem State.setPtr_place (s : State) (p : Ptr) (v : Word) (a : Word) :
    (s.setPtr p v).place a = s.place a := by cases p <;> rfl
@[simp] theorem State.ptr_setPtr (s : State) (p q : Ptr) (v : Word) :
    (s.setPtr p v).ptr q = if q = p then v else s.ptr q := by cases p <;> cases q <;> rfl
@[simp] theorem State.ptr_setPc (s : State) (q : Ptr) (v : Word) :
    (s.setPc v).ptr q = if q = .p0 then v else s.ptr q := by cases q <;> rfl

/-! The place of an address (spec/20_memory.md R51, R59) -/

theorem State.place_congr {s t : State} (h : t.pageMask = s.pageMask) (a : Word) : t.place a = s.place a := by
  simp [State.place, h]

theorem State.kindOf_congr {s : State} {a b : Word} (h : s.place a = s.place b) : s.kindOf a = s.kindOf b := by
  simp [State.kindOf, h]

theorem State.byteAt_congr {s : State} {a b : Word} (h : s.place a = s.place b) : s.byteAt a = s.byteAt b := by
  simp [State.byteAt, h]

end Sys2Proof.Machine
end

