-- ==== Sys2Proof/Laws/Memory.lean ====
section
/-! SUPPORT. The laws of the memory list: read after write, and the canonical form is kept. -/

namespace Sys2Proof.Machine

/-- Every address listed is above `a`. -/
def Memory.above (a : Nat) (m : Memory) : Prop := ∀ c ∈ m, a < c.1

theorem Memory.wf_nil : Memory.wf [] = true := rfl

theorem Memory.wf_cons (a : Nat) (v : Byte) (m : Memory) :
    Memory.wf ((a, v) :: m) = true ↔
      a < 65536 ∧ v ≠ Config.unlistedByte ∧ Memory.above a m ∧ Memory.wf m = true := by
  simp [Memory.wf, Memory.above, and_assoc]

theorem Memory.read_of_above {a : Nat} {m : Memory} (h : Memory.above a m) :
    Memory.read m a = Config.unlistedByte := by
  induction m with
  | nil => rfl
  | cons c m ih =>
    obtain ⟨b, w⟩ := c
    have hb : a < b := h (b, w) (by simp)
    have hm : Memory.above a m := fun c hc => h c (by simp [hc])
    simp [Memory.read, Nat.ne_of_lt hb, ih hm]

theorem Memory.above_write {b a : Nat} {v : Byte} {m : Memory} (h : Memory.above b m) (hab : b < a) :
    Memory.above b (Memory.write m a v) := by
  induction m with
  | nil =>
    intro c hc
    simp only [Memory.write] at hc
    split at hc <;> simp_all
  | cons c m ih =>
    obtain ⟨x, w⟩ := c
    have hm : Memory.above b m := fun c hc => h c (by simp [hc])
    have hx : b < x := h (x, w) (by simp)
    have ih' := ih hm
    intro c hc
    simp only [Memory.write] at hc
    split at hc
    · split at hc <;> simp only [List.mem_cons] at hc <;> rcases hc with rfl | hc
      · exact hx
      · exact hm c hc
      · exact hab
      · rcases hc with rfl | hc
        · exact hx
        · exact hm c hc
    · split at hc
      · split at hc
        · exact hm c hc
        · simp only [List.mem_cons] at hc
          rcases hc with rfl | hc
          · exact hab
          · exact hm c hc
      · simp only [List.mem_cons] at hc
        rcases hc with rfl | hc
        · exact hx
        · exact ih' c hc

/-- A write keeps the canonical form. -/
theorem Memory.wf_write {m : Memory} {a : Nat} {v : Byte} (h : Memory.wf m = true) (ha : a < 65536) :
    Memory.wf (Memory.write m a v) = true := by
  induction m with
  | nil =>
    by_cases hv : v = Config.unlistedByte
    · simp [Memory.write, hv, Memory.wf_nil]
    · simp [Memory.write, hv, Memory.wf_cons, Memory.wf_nil, Memory.above, ha]
  | cons c m ih =>
    obtain ⟨b, w⟩ := c
    have hc := (Memory.wf_cons b w m).mp h
    obtain ⟨hb, hw, hab, hm⟩ := hc
    by_cases hlt : a < b
    · by_cases hv : v = Config.unlistedByte
      · simpa [Memory.write, hlt, hv] using h
      · have habove : Memory.above a ((b, w) :: m) := by
          intro c hc
          rcases List.mem_cons.mp hc with rfl | hc
          · exact hlt
          · exact Nat.lt_trans hlt (hab c hc)
        simpa [Memory.write, hlt, hv] using (Memory.wf_cons a v ((b, w) :: m)).mpr ⟨ha, hv, habove, h⟩
    · by_cases heq : a = b
      · subst heq
        by_cases hv : v = Config.unlistedByte
        · simpa [Memory.write, hv] using hm
        · simpa [Memory.write, hv] using (Memory.wf_cons a v m).mpr ⟨ha, hv, hab, hm⟩
      · have hba : b < a := by omega
        have := (Memory.wf_cons b w (Memory.write m a v)).mpr ⟨hb, hw, Memory.above_write hab hba, ih hm⟩
        simpa [Memory.write, hlt, heq] using this

/-- A write lists nothing but what was listed and the byte written. -/
theorem Memory.mem_write {m : Memory} {a : Nat} {v : Byte} {c : Host.Cell} (h : c ∈ Memory.write m a v) :
    c = (a, v) ∨ c ∈ m := by
  induction m with
  | nil => by_cases hv : v = Config.unlistedByte <;> simp_all [Memory.write]
  | cons x m ih =>
    obtain ⟨b, w⟩ := x
    by_cases hlt : a < b
    · by_cases hv : v = Config.unlistedByte <;> simp_all [Memory.write]
    · by_cases heq : a = b
      · by_cases hv : v = Config.unlistedByte <;> simp_all [Memory.write]
        tauto
      · simp [Memory.write, hlt, heq] at h
        rcases h with h | h
        · simp [h]
        · rcases ih h with h | h <;> simp [h]

/-- A read after a write to another address. -/
theorem Memory.read_write_other {m : Memory} {a c : Nat} {v : Byte} (h : c ≠ a) :
    Memory.read (Memory.write m a v) c = Memory.read m c := by
  induction m with
  | nil => by_cases hv : v = Config.unlistedByte <;> simp [Memory.write, Memory.read, hv, h]
  | cons x m ih =>
    obtain ⟨b, w⟩ := x
    by_cases hlt : a < b
    · by_cases hv : v = Config.unlistedByte <;> simp [Memory.write, Memory.read, hlt, hv, h]
    · by_cases heq : a = b
      · subst heq
        by_cases hv : v = Config.unlistedByte <;> simp [Memory.write, Memory.read, hv, h]
      · simp [Memory.write, Memory.read, hlt, heq, ih]

/-- A read after a write to the same address. -/
theorem Memory.read_write_same {m : Memory} {a : Nat} {v : Byte} (hm : Memory.wf m = true) :
    Memory.read (Memory.write m a v) a = v := by
  induction m with
  | nil => by_cases hv : v = Config.unlistedByte <;> simp [Memory.write, Memory.read, hv]
  | cons x m ih =>
    obtain ⟨b, w⟩ := x
    obtain ⟨-, -, hab, hwf⟩ := (Memory.wf_cons b w m).mp hm
    by_cases hlt : a < b
    · by_cases hv : v = Config.unlistedByte
      · have hne : a ≠ b := by omega
        have habove : Memory.above a m := fun c hc => Nat.lt_trans hlt (hab c hc)
        simp [Memory.write, Memory.read, hlt, hv, hne, Memory.read_of_above habove]
      · simp [Memory.write, Memory.read, hlt, hv]
    · by_cases heq : a = b
      · subst heq
        by_cases hv : v = Config.unlistedByte
        · simp [Memory.write, hv, Memory.read_of_above hab]
        · simp [Memory.write, Memory.read, hv]
      · simp [Memory.write, Memory.read, hlt, heq, ih hwf]

/-- Two canonical memories that read the same everywhere are the same data. -/
theorem Memory.eq_of_read_eq {m n : Memory} (hm : Memory.wf m = true) (hn : Memory.wf n = true)
    (h : ∀ a, Memory.read m a = Memory.read n a) : m = n := by
  induction m generalizing n with
  | nil =>
    cases n with
    | nil => rfl
    | cons y n =>
      obtain ⟨b, w⟩ := y
      obtain ⟨-, hw, -, -⟩ := (Memory.wf_cons b w n).mp hn
      have := h b
      simp [Memory.read] at this
      exact absurd this.symm hw
  | cons x m ih =>
    obtain ⟨a, v⟩ := x
    obtain ⟨-, hv, ham, hmwf⟩ := (Memory.wf_cons a v m).mp hm
    cases n with
    | nil =>
      have := h a
      simp [Memory.read] at this
      exact absurd this hv
    | cons y n =>
      obtain ⟨b, w⟩ := y
      obtain ⟨-, hw, hbn, hnwf⟩ := (Memory.wf_cons b w n).mp hn
      have hab : a = b := by
        rcases Nat.lt_trichotomy a b with hlt | heq | hgt
        · have h1 := h a
          have habove : Memory.above a n := fun c hc => Nat.lt_trans hlt (hbn c hc)
          simp [Memory.read, Nat.ne_of_lt hlt, Memory.read_of_above habove] at h1
          exact absurd h1 hv
        · exact heq
        · have h1 := h b
          have habove : Memory.above b m := fun c hc => Nat.lt_trans hgt (ham c hc)
          simp [Memory.read, Nat.ne_of_lt hgt, Memory.read_of_above habove] at h1
          exact absurd h1.symm hw
      subst hab
      have hvw : v = w := by simpa [Memory.read] using h a
      subst hvw
      have : m = n := by
        apply ih hmwf hnwf
        intro c
        by_cases hc : c = a
        · subst hc
          rw [Memory.read_of_above ham, Memory.read_of_above hbn]
        · simpa [Memory.read, hc] using h c
      rw [this]

end Sys2Proof.Machine
end

