-- ==== Sys2Proof/Laws/Ops.lean ====
section
/-! SUPPORT. What each shared operation can do, said once: the fields it leaves alone as simp lemmas, the rest as one
specification lemma each. -/

namespace Sys2Proof.Machine

/-! Writes to memory -/

@[simp] theorem storeByte_ac (a : Word) (v : Byte) (s : State) : (storeByte a v s).ac = s.ac := by
  unfold storeByte; split <;> rfl
@[simp] theorem storeByte_e (a : Word) (v : Byte) (s : State) : (storeByte a v s).e = s.e := by
  unfold storeByte; split <;> rfl
@[simp] theorem storeByte_sr (a : Word) (v : Byte) (s : State) : (storeByte a v s).sr = s.sr := by
  unfold storeByte; split <;> rfl
@[simp] theorem storeByte_p0 (a : Word) (v : Byte) (s : State) : (storeByte a v s).p0 = s.p0 := by
  unfold storeByte; split <;> rfl
@[simp] theorem storeByte_p1 (a : Word) (v : Byte) (s : State) : (storeByte a v s).p1 = s.p1 := by
  unfold storeByte; split <;> rfl
@[simp] theorem storeByte_p2 (a : Word) (v : Byte) (s : State) : (storeByte a v s).p2 = s.p2 := by
  unfold storeByte; split <;> rfl
@[simp] theorem storeByte_p3 (a : Word) (v : Byte) (s : State) : (storeByte a v s).p3 = s.p3 := by
  unfold storeByte; split <;> rfl
@[simp] theorem storeByte_running (a : Word) (v : Byte) (s : State) : (storeByte a v s).running = s.running := by
  unfold storeByte; split <;> rfl
@[simp] theorem storeByte_ienPending (a : Word) (v : Byte) (s : State) : (storeByte a v s).ienPending = s.ienPending := by
  unfold storeByte; split <;> rfl
@[simp] theorem storeByte_sout (a : Word) (v : Byte) (s : State) : (storeByte a v s).sout = s.sout := by
  unfold storeByte; split <;> rfl
@[simp] theorem storeByte_memmap (a : Word) (v : Byte) (s : State) : (storeByte a v s).memmap = s.memmap := by
  unfold storeByte; split <;> rfl
@[simp] theorem storeByte_pageMask (a : Word) (v : Byte) (s : State) : (storeByte a v s).pageMask = s.pageMask := by
  unfold storeByte; split <;> rfl
@[simp] theorem storeByte_events (a : Word) (v : Byte) (s : State) : (storeByte a v s).events = s.events := by
  unfold storeByte; split <;> rfl
@[simp] theorem storeByte_script (a : Word) (v : Byte) (s : State) : (storeByte a v s).script = s.script := by
  unfold storeByte; split <;> rfl
@[simp] theorem storeByte_tick (a : Word) (v : Byte) (s : State) : (storeByte a v s).tick = s.tick := by
  unfold storeByte; split <;> rfl
@[simp] theorem storeByte_inputs (a : Word) (v : Byte) (s : State) : (storeByte a v s).inputs = s.inputs := by
  simp [State.inputs]
@[simp] theorem storeByte_ptr (a : Word) (v : Byte) (s : State) (q : Ptr) : (storeByte a v s).ptr q = s.ptr q := by
  cases q <;> simp
@[simp] theorem storeByte_place (a : Word) (v : Byte) (s : State) (b : Word) : (storeByte a v s).place b = s.place b :=
  State.place_congr (storeByte_pageMask a v s) b

/-- A store writes RAM and nothing else (spec/20_memory.md R53). -/
theorem storeByte_mem (a : Word) (v : Byte) (s : State) :
    (storeByte a v s).mem = if s.kindOf a = .ram then Memory.write s.mem (s.place a).toNat v else s.mem := by
  unfold storeByte; split <;> simp_all

theorem memWrite_eq (a : Word) (v : Byte) (s : State) :
    memWrite a v s = if s.kindOf a = .device then s.emit (.deviceWrite a v) else storeByte a v s := by
  unfold memWrite; split <;> simp_all

/-- A write by the processor reaches memory exactly as `storeByte` does; a device gets an event instead. -/
theorem memWrite_mem (a : Word) (v : Byte) (s : State) : (memWrite a v s).mem = (storeByte a v s).mem := by
  rw [memWrite_eq, storeByte_mem]; split <;> simp_all [storeByte_mem]

theorem memWrite_events (a : Word) (v : Byte) (s : State) :
    (memWrite a v s).events = if s.kindOf a = .device then s.events ++ [.deviceWrite a v] else s.events := by
  rw [memWrite_eq]; split <;> simp

@[simp] theorem memWrite_ac (a : Word) (v : Byte) (s : State) : (memWrite a v s).ac = s.ac := by
  rw [memWrite_eq]; split <;> simp
@[simp] theorem memWrite_e (a : Word) (v : Byte) (s : State) : (memWrite a v s).e = s.e := by
  rw [memWrite_eq]; split <;> simp
@[simp] theorem memWrite_sr (a : Word) (v : Byte) (s : State) : (memWrite a v s).sr = s.sr := by
  rw [memWrite_eq]; split <;> simp
@[simp] theorem memWrite_p0 (a : Word) (v : Byte) (s : State) : (memWrite a v s).p0 = s.p0 := by
  rw [memWrite_eq]; split <;> simp
@[simp] theorem memWrite_p1 (a : Word) (v : Byte) (s : State) : (memWrite a v s).p1 = s.p1 := by
  rw [memWrite_eq]; split <;> simp
@[simp] theorem memWrite_p2 (a : Word) (v : Byte) (s : State) : (memWrite a v s).p2 = s.p2 := by
  rw [memWrite_eq]; split <;> simp
@[simp] theorem memWrite_p3 (a : Word) (v : Byte) (s : State) : (memWrite a v s).p3 = s.p3 := by
  rw [memWrite_eq]; split <;> simp
@[simp] theorem memWrite_running (a : Word) (v : Byte) (s : State) : (memWrite a v s).running = s.running := by
  rw [memWrite_eq]; split <;> simp
@[simp] theorem memWrite_ienPending (a : Word) (v : Byte) (s : State) : (memWrite a v s).ienPending = s.ienPending := by
  rw [memWrite_eq]; split <;> simp
@[simp] theorem memWrite_sout (a : Word) (v : Byte) (s : State) : (memWrite a v s).sout = s.sout := by
  rw [memWrite_eq]; split <;> simp
@[simp] theorem memWrite_memmap (a : Word) (v : Byte) (s : State) : (memWrite a v s).memmap = s.memmap := by
  rw [memWrite_eq]; split <;> simp
@[simp] theorem memWrite_pageMask (a : Word) (v : Byte) (s : State) : (memWrite a v s).pageMask = s.pageMask := by
  rw [memWrite_eq]; split <;> simp
@[simp] theorem memWrite_script (a : Word) (v : Byte) (s : State) : (memWrite a v s).script = s.script := by
  rw [memWrite_eq]; split <;> simp
@[simp] theorem memWrite_tick (a : Word) (v : Byte) (s : State) : (memWrite a v s).tick = s.tick := by
  rw [memWrite_eq]; split <;> simp
@[simp] theorem memWrite_inputs (a : Word) (v : Byte) (s : State) : (memWrite a v s).inputs = s.inputs := by
  simp [State.inputs]
@[simp] theorem memWrite_ptr (a : Word) (v : Byte) (s : State) (q : Ptr) : (memWrite a v s).ptr q = s.ptr q := by
  cases q <;> simp
@[simp] theorem memWrite_place (a : Word) (v : Byte) (s : State) (b : Word) : (memWrite a v s).place b = s.place b :=
  State.place_congr (memWrite_pageMask a v s) b

/-! Reads -/

/-- The byte a read returns (spec/20_memory.md R53). -/
theorem busRead_value (k : Access) (x : Byte) (a : Word) (s : State) :
    (busRead k x a s).1 = if s.kindOf a = .ram ∨ s.kindOf a = .rom then s.byteAt a else x := by
  unfold busRead; split <;> simp_all

/-- A read leaves the state alone, but for the event of a device. -/
theorem busRead_state (k : Access) (x : Byte) (a : Word) (s : State) :
    (busRead k x a s).2 = if s.kindOf a = .device then s.emit (.deviceRead k a x) else s := by
  unfold busRead; split <;> simp_all

@[simp] theorem busRead_ac (k : Access) (x : Byte) (a : Word) (s : State) : (busRead k x a s).2.ac = s.ac := by
  rw [busRead_state]; split <;> simp
@[simp] theorem busRead_e (k : Access) (x : Byte) (a : Word) (s : State) : (busRead k x a s).2.e = s.e := by
  rw [busRead_state]; split <;> simp
@[simp] theorem busRead_sr (k : Access) (x : Byte) (a : Word) (s : State) : (busRead k x a s).2.sr = s.sr := by
  rw [busRead_state]; split <;> simp
@[simp] theorem busRead_p0 (k : Access) (x : Byte) (a : Word) (s : State) : (busRead k x a s).2.p0 = s.p0 := by
  rw [busRead_state]; split <;> simp
@[simp] theorem busRead_p1 (k : Access) (x : Byte) (a : Word) (s : State) : (busRead k x a s).2.p1 = s.p1 := by
  rw [busRead_state]; split <;> simp
@[simp] theorem busRead_p2 (k : Access) (x : Byte) (a : Word) (s : State) : (busRead k x a s).2.p2 = s.p2 := by
  rw [busRead_state]; split <;> simp
@[simp] theorem busRead_p3 (k : Access) (x : Byte) (a : Word) (s : State) : (busRead k x a s).2.p3 = s.p3 := by
  rw [busRead_state]; split <;> simp
@[simp] theorem busRead_running (k : Access) (x : Byte) (a : Word) (s : State) : (busRead k x a s).2.running = s.running := by
  rw [busRead_state]; split <;> simp
@[simp] theorem busRead_ienPending (k : Access) (x : Byte) (a : Word) (s : State) : (busRead k x a s).2.ienPending = s.ienPending := by
  rw [busRead_state]; split <;> simp
@[simp] theorem busRead_sout (k : Access) (x : Byte) (a : Word) (s : State) : (busRead k x a s).2.sout = s.sout := by
  rw [busRead_state]; split <;> simp
@[simp] theorem busRead_mem (k : Access) (x : Byte) (a : Word) (s : State) : (busRead k x a s).2.mem = s.mem := by
  rw [busRead_state]; split <;> simp
@[simp] theorem busRead_memmap (k : Access) (x : Byte) (a : Word) (s : State) : (busRead k x a s).2.memmap = s.memmap := by
  rw [busRead_state]; split <;> simp
@[simp] theorem busRead_pageMask (k : Access) (x : Byte) (a : Word) (s : State) : (busRead k x a s).2.pageMask = s.pageMask := by
  rw [busRead_state]; split <;> simp
@[simp] theorem busRead_script (k : Access) (x : Byte) (a : Word) (s : State) : (busRead k x a s).2.script = s.script := by
  rw [busRead_state]; split <;> simp
@[simp] theorem busRead_tick (k : Access) (x : Byte) (a : Word) (s : State) : (busRead k x a s).2.tick = s.tick := by
  rw [busRead_state]; split <;> simp
@[simp] theorem dataRead_ac (a : Word) (s : State) : (dataRead a s).2.ac = s.ac := busRead_ac _ _ a s
@[simp] theorem dataRead_e (a : Word) (s : State) : (dataRead a s).2.e = s.e := busRead_e _ _ a s
@[simp] theorem dataRead_sr (a : Word) (s : State) : (dataRead a s).2.sr = s.sr := busRead_sr _ _ a s
@[simp] theorem dataRead_p0 (a : Word) (s : State) : (dataRead a s).2.p0 = s.p0 := busRead_p0 _ _ a s
@[simp] theorem dataRead_p1 (a : Word) (s : State) : (dataRead a s).2.p1 = s.p1 := busRead_p1 _ _ a s
@[simp] theorem dataRead_p2 (a : Word) (s : State) : (dataRead a s).2.p2 = s.p2 := busRead_p2 _ _ a s
@[simp] theorem dataRead_p3 (a : Word) (s : State) : (dataRead a s).2.p3 = s.p3 := busRead_p3 _ _ a s
@[simp] theorem dataRead_running (a : Word) (s : State) : (dataRead a s).2.running = s.running := busRead_running _ _ a s
@[simp] theorem dataRead_ienPending (a : Word) (s : State) : (dataRead a s).2.ienPending = s.ienPending := busRead_ienPending _ _ a s
@[simp] theorem dataRead_sout (a : Word) (s : State) : (dataRead a s).2.sout = s.sout := busRead_sout _ _ a s
@[simp] theorem dataRead_mem (a : Word) (s : State) : (dataRead a s).2.mem = s.mem := busRead_mem _ _ a s
@[simp] theorem dataRead_memmap (a : Word) (s : State) : (dataRead a s).2.memmap = s.memmap := busRead_memmap _ _ a s
@[simp] theorem dataRead_pageMask (a : Word) (s : State) : (dataRead a s).2.pageMask = s.pageMask := busRead_pageMask _ _ a s
@[simp] theorem dataRead_script (a : Word) (s : State) : (dataRead a s).2.script = s.script := busRead_script _ _ a s
@[simp] theorem dataRead_tick (a : Word) (s : State) : (dataRead a s).2.tick = s.tick := busRead_tick _ _ a s
@[simp] theorem busRead_inputs (k : Access) (x : Byte) (a : Word) (s : State) : (busRead k x a s).2.inputs = s.inputs := by simp [State.inputs]
@[simp] theorem busRead_ptr (k : Access) (x : Byte) (a : Word) (s : State) (q : Ptr) : (busRead k x a s).2.ptr q = s.ptr q := by cases q <;> simp
@[simp] theorem busRead_byteAt (k : Access) (x : Byte) (a : Word) (s : State) (b : Word) : (busRead k x a s).2.byteAt b = s.byteAt b := by simp [State.byteAt, State.place]
@[simp] theorem busRead_kindOf (k : Access) (x : Byte) (a : Word) (s : State) (b : Word) : (busRead k x a s).2.kindOf b = s.kindOf b := by simp [State.kindOf, State.place]
@[simp] theorem busRead_place (k : Access) (x : Byte) (a : Word) (s : State) (b : Word) : (busRead k x a s).2.place b = s.place b := by simp [State.place]
@[simp] theorem dataRead_inputs (a : Word) (s : State) : (dataRead a s).2.inputs = s.inputs := by simp [State.inputs]
@[simp] theorem dataRead_ptr (a : Word) (s : State) (q : Ptr) : (dataRead a s).2.ptr q = s.ptr q := by cases q <;> simp
@[simp] theorem dataRead_byteAt (a : Word) (s : State) (b : Word) : (dataRead a s).2.byteAt b = s.byteAt b := by simp [State.byteAt, State.place]
@[simp] theorem dataRead_kindOf (a : Word) (s : State) (b : Word) : (dataRead a s).2.kindOf b = s.kindOf b := by simp [State.kindOf, State.place]
@[simp] theorem dataRead_place (a : Word) (s : State) (b : Word) : (dataRead a s).2.place b = s.place b := by simp [State.place]

/-! Page-local arithmetic -/

@[simp] theorem pageOf_append (x : BitVec 4) (y : BitVec 12) : pageOf (x ++ y) = x :=
  BitVec.extractLsb'_append_eq_left

@[simp] theorem offsetOf_append (x : BitVec 4) (y : BitVec 12) : offsetOf (x ++ y) = y :=
  BitVec.extractLsb'_append_eq_right

/-- The place of a place is itself. -/
@[simp] theorem State.place_place (s : State) (a : Word) : s.place (s.place a) = s.place a := by
  simp [State.place, BitVec.and_assoc]

theorem page_append_offset (w : Word) : pageOf w ++ offsetOf w = w := by
  simp only [pageOf, offsetOf]
  rw [BitVec.extractLsb'_append_extractLsb'_eq_extractLsb' (by rfl)]
  exact BitVec.extractLsb'_eq_self

/-- Two additions to one pointer are one. -/
theorem add12_add12 (p : Word) (k j : Int) : add12 (add12 p k) j = add12 p (k + j) := by
  simp only [add12, pageOf_append, offsetOf_append]
  congr 1
  apply BitVec.eq_of_toNat_eq
  simp only [BitVec.toNat_ofInt]
  omega

@[simp] theorem add12_zero (p : Word) : add12 p 0 = p := by
  conv => rhs; rw [← page_append_offset p]
  simp [add12]

/-! Bytes of a pointer as numbers -/

theorem toNat_append_bytes (x y : Byte) : (x ++ y : Word).toNat = 256 * x.toNat + y.toNat := by
  have h := BitVec.toNat_append x y
  rw [h, Nat.shiftLeft_eq, Nat.mul_comm, ← Nat.two_pow_add_eq_or_of_lt y.isLt]

theorem highByte_toNat (w : Word) : (highByte w).toNat = w.toNat / 256 := by
  have := w.isLt
  simp [highByte, Nat.shiftRight_eq_div_pow]; omega

theorem lowByte_toNat (w : Word) : (lowByte w).toNat = w.toNat % 256 := by
  simp [lowByte]

/-! The interrupt and the exchange of the PC -/

theorem exchangePc_ptr (p q : Ptr) (s : State) :
    (exchangePc p s).ptr q = if q = .p0 then s.ptr p else if q = p then s.p0 else s.ptr q := by
  cases p <;> cases q <;> rfl

@[simp] theorem exchangePc_ac (p : Ptr) (s : State) : (exchangePc p s).ac = s.ac := by cases p <;> rfl
@[simp] theorem exchangePc_e (p : Ptr) (s : State) : (exchangePc p s).e = s.e := by cases p <;> rfl
@[simp] theorem exchangePc_sr (p : Ptr) (s : State) : (exchangePc p s).sr = s.sr := by cases p <;> rfl
@[simp] theorem exchangePc_running (p : Ptr) (s : State) : (exchangePc p s).running = s.running := by cases p <;> rfl
@[simp] theorem exchangePc_ienPending (p : Ptr) (s : State) : (exchangePc p s).ienPending = s.ienPending := by cases p <;> rfl
@[simp] theorem exchangePc_sout (p : Ptr) (s : State) : (exchangePc p s).sout = s.sout := by cases p <;> rfl
@[simp] theorem exchangePc_mem (p : Ptr) (s : State) : (exchangePc p s).mem = s.mem := by cases p <;> rfl
@[simp] theorem exchangePc_memmap (p : Ptr) (s : State) : (exchangePc p s).memmap = s.memmap := by cases p <;> rfl
@[simp] theorem exchangePc_pageMask (p : Ptr) (s : State) : (exchangePc p s).pageMask = s.pageMask := by cases p <;> rfl
@[simp] theorem exchangePc_place (p : Ptr) (s : State) (z : Word) : (exchangePc p s).place z = s.place z :=
  State.place_congr (exchangePc_pageMask p s) z
@[simp] theorem exchangePc_events (p : Ptr) (s : State) : (exchangePc p s).events = s.events := by cases p <;> rfl
@[simp] theorem exchangePc_script (p : Ptr) (s : State) : (exchangePc p s).script = s.script := by cases p <;> rfl
@[simp] theorem exchangePc_tick (p : Ptr) (s : State) : (exchangePc p s).tick = s.tick := by cases p <;> rfl

/-- `InterruptCheck` in the words of spec/60_exceptions.md R222: a pending IEN skips the check, else the request is
looked at. -/
theorem interruptCheck_eq (s : State) :
    interruptCheck s =
      if s.ienPending then s.setIenPending false
      else if s.sr.ie && s.inputs.senseAAtCheck then interruptEntry (s.setIenPending false)
      else s.setIenPending false := by
  unfold interruptCheck interruptTaken
  cases s.ienPending <;> simp

@[simp] theorem interruptCheck_ac (s : State) : (interruptCheck s).ac = s.ac := by
  unfold interruptCheck interruptEntry; split <;> simp [exchangePc]
@[simp] theorem interruptCheck_e (s : State) : (interruptCheck s).e = s.e := by
  unfold interruptCheck interruptEntry; split <;> simp [exchangePc]
@[simp] theorem interruptCheck_p1 (s : State) : (interruptCheck s).p1 = s.p1 := by
  unfold interruptCheck interruptEntry; split <;> simp [exchangePc]
@[simp] theorem interruptCheck_p2 (s : State) : (interruptCheck s).p2 = s.p2 := by
  unfold interruptCheck interruptEntry; split <;> simp [exchangePc]
@[simp] theorem interruptCheck_running (s : State) : (interruptCheck s).running = s.running := by
  unfold interruptCheck interruptEntry; split <;> simp [exchangePc]
@[simp] theorem interruptCheck_sout (s : State) : (interruptCheck s).sout = s.sout := by
  unfold interruptCheck interruptEntry; split <;> simp [exchangePc]
@[simp] theorem interruptCheck_mem (s : State) : (interruptCheck s).mem = s.mem := by
  unfold interruptCheck interruptEntry; split <;> simp [exchangePc]
@[simp] theorem interruptCheck_memmap (s : State) : (interruptCheck s).memmap = s.memmap := by
  unfold interruptCheck interruptEntry; split <;> simp [exchangePc]
@[simp] theorem interruptCheck_pageMask (s : State) : (interruptCheck s).pageMask = s.pageMask := by
  unfold interruptCheck interruptEntry; split <;> simp [exchangePc]
@[simp] theorem interruptCheck_place (s : State) (a : Word) : (interruptCheck s).place a = s.place a :=
  State.place_congr (interruptCheck_pageMask s) a
@[simp] theorem interruptCheck_events (s : State) : (interruptCheck s).events = s.events := by
  unfold interruptCheck interruptEntry; split <;> simp [exchangePc]
@[simp] theorem interruptCheck_script (s : State) : (interruptCheck s).script = s.script := by
  unfold interruptCheck interruptEntry; split <;> simp [exchangePc]
@[simp] theorem interruptCheck_tick (s : State) : (interruptCheck s).tick = s.tick := by
  unfold interruptCheck interruptEntry; split <;> simp [exchangePc]
@[simp] theorem interruptCheck_ienPending (s : State) : (interruptCheck s).ienPending = false := by
  unfold interruptCheck interruptEntry; split <;> simp
@[simp] theorem interruptCheck_inputs (s : State) : (interruptCheck s).inputs = s.inputs := by simp [State.inputs]

/-! Effective addresses -/

/-- `EA_mem` gives an address exactly for the well-formed fields (spec/40_addressing_and_alu.md R116). -/
theorem eaMem_isSome (m : IndexMode) (p : Ptr) (d : Byte) (s : State) :
    (eaMem m p d s).isSome = MemFields.wellFormed m p := by
  cases m <;> cases p <;> rfl

/-- The state `EA_mem` leaves: the pointer of an auto-indexed access rewritten, nothing else (R115, R116). -/
theorem eaMem_state {m : IndexMode} {p : Ptr} {d : Byte} {s t : State} {a : Word}
    (h : eaMem m p d s = some (a, t)) :
    t = s ∨ (m = .auto ∧ p ≠ .p0 ∧ t = s.setPtr p (add12 (s.ptr p) (dispOf d s))) := by
  cases m
  · simp only [eaMem, Option.some.injEq, Prod.mk.injEq] at h
    exact .inl h.2.symm
  · by_cases hp : p = .p0
    · simp [eaMem, hp] at h
    · simp only [eaMem, hp, if_false, Option.some.injEq, Prod.mk.injEq] at h
      exact .inr ⟨rfl, hp, h.2.symm⟩

theorem eaMem_ac {m : IndexMode} {p : Ptr} {d : Byte} {s t : State} {a : Word}
    (h : eaMem m p d s = some (a, t)) : t.ac = s.ac := by
  rcases eaMem_state h with rfl | ⟨_, hp, rfl⟩
  · rfl
  · simp
theorem eaMem_e {m : IndexMode} {p : Ptr} {d : Byte} {s t : State} {a : Word}
    (h : eaMem m p d s = some (a, t)) : t.e = s.e := by
  rcases eaMem_state h with rfl | ⟨_, hp, rfl⟩
  · rfl
  · simp
theorem eaMem_sr {m : IndexMode} {p : Ptr} {d : Byte} {s t : State} {a : Word}
    (h : eaMem m p d s = some (a, t)) : t.sr = s.sr := by
  rcases eaMem_state h with rfl | ⟨_, hp, rfl⟩
  · rfl
  · simp
theorem eaMem_p0 {m : IndexMode} {p : Ptr} {d : Byte} {s t : State} {a : Word}
    (h : eaMem m p d s = some (a, t)) : t.p0 = s.p0 := by
  rcases eaMem_state h with rfl | ⟨_, hp, rfl⟩
  · rfl
  · cases p <;> first | rfl | exact absurd rfl hp
theorem eaMem_running {m : IndexMode} {p : Ptr} {d : Byte} {s t : State} {a : Word}
    (h : eaMem m p d s = some (a, t)) : t.running = s.running := by
  rcases eaMem_state h with rfl | ⟨_, hp, rfl⟩
  · rfl
  · simp
theorem eaMem_ienPending {m : IndexMode} {p : Ptr} {d : Byte} {s t : State} {a : Word}
    (h : eaMem m p d s = some (a, t)) : t.ienPending = s.ienPending := by
  rcases eaMem_state h with rfl | ⟨_, hp, rfl⟩
  · rfl
  · simp
theorem eaMem_sout {m : IndexMode} {p : Ptr} {d : Byte} {s t : State} {a : Word}
    (h : eaMem m p d s = some (a, t)) : t.sout = s.sout := by
  rcases eaMem_state h with rfl | ⟨_, hp, rfl⟩
  · rfl
  · simp
theorem eaMem_mem {m : IndexMode} {p : Ptr} {d : Byte} {s t : State} {a : Word}
    (h : eaMem m p d s = some (a, t)) : t.mem = s.mem := by
  rcases eaMem_state h with rfl | ⟨_, hp, rfl⟩
  · rfl
  · simp
theorem eaMem_memmap {m : IndexMode} {p : Ptr} {d : Byte} {s t : State} {a : Word}
    (h : eaMem m p d s = some (a, t)) : t.memmap = s.memmap := by
  rcases eaMem_state h with rfl | ⟨_, hp, rfl⟩
  · rfl
  · simp
theorem eaMem_pageMask {m : IndexMode} {p : Ptr} {d : Byte} {s t : State} {a : Word}
    (h : eaMem m p d s = some (a, t)) : t.pageMask = s.pageMask := by
  rcases eaMem_state h with rfl | ⟨_, hp, rfl⟩
  · rfl
  · simp
theorem eaMem_place {m : IndexMode} {p : Ptr} {d : Byte} {s t : State} {a : Word}
    (h : eaMem m p d s = some (a, t)) (b : Word) : t.place b = s.place b := State.place_congr (eaMem_pageMask h) b
theorem eaMem_events {m : IndexMode} {p : Ptr} {d : Byte} {s t : State} {a : Word}
    (h : eaMem m p d s = some (a, t)) : t.events = s.events := by
  rcases eaMem_state h with rfl | ⟨_, hp, rfl⟩
  · rfl
  · simp
theorem eaMem_script {m : IndexMode} {p : Ptr} {d : Byte} {s t : State} {a : Word}
    (h : eaMem m p d s = some (a, t)) : t.script = s.script := by
  rcases eaMem_state h with rfl | ⟨_, hp, rfl⟩
  · rfl
  · simp
theorem eaMem_tick {m : IndexMode} {p : Ptr} {d : Byte} {s t : State} {a : Word}
    (h : eaMem m p d s = some (a, t)) : t.tick = s.tick := by
  rcases eaMem_state h with rfl | ⟨_, hp, rfl⟩
  · rfl
  · simp

/-- A meaning over one memory operand answers a next state only this way (R130, R132 to R137). -/
theorem withOperand_next {f : Byte → State → State} {m : IndexMode} {p : Ptr} {d : Byte} {s u : State}
    (h : withOperand f m p d s = .next u) :
    ∃ a t, eaMem m p d s = some (a, t) ∧ u = f (dataRead a t).1 (dataRead a t).2 := by
  unfold withOperand at h
  split at h
  · cases h
  · rename_i a t heq
    exact ⟨a, t, heq, by injection h with h; exact h.symm⟩

end Sys2Proof.Machine
end

