-- ==== Sys2Proof/Laws/Exec.lean ====
section
/-! SUPPORT. What `exec` can do, said once: if it answers a next state, that state is the one `ExecNext` names. And the
fields the operations of several meanings leave alone. -/

namespace Sys2Proof.Machine

/-- Effect after the effective address and the data read of a format MR instruction. -/
def AfterRead (f : Byte → State → State) (m : IndexMode) (p : Ptr) (d : Byte) (s u : State) : Prop :=
  ∃ a t, eaMem m p d s = some (a, t) ∧ u = f (dataRead a t).1 (dataRead a t).2

/-- The next state of each instruction. -/
def ExecNext : Instr → State → State → Prop
  | .ld m p d, s, u => AfterRead (fun v t => t.setAc v) m p d s u
  | .st m p d, s, u => ∃ a t, eaMem m p d s = some (a, t) ∧ u = memWrite a t.ac t
  | .and m p d, s, u => AfterRead (fun v t => t.setAc (t.ac &&& v)) m p d s u
  | .or m p d, s, u => AfterRead (fun v t => t.setAc (t.ac ||| v)) m p d s u
  | .xor m p d, s, u => AfterRead (fun v t => t.setAc (t.ac ^^^ v)) m p d s u
  | .dad m p d, s, u => AfterRead decimalAddToAc m p d s u
  | .add m p d, s, u => AfterRead addToAc m p d s u
  | .cad m p d, s, u => AfterRead complementAddToAc m p d s u
  | .ldi d, s, u => u = s.setAc d
  | .ani d, s, u => u = s.setAc (s.ac &&& d)
  | .ori d, s, u => u = s.setAc (s.ac ||| d)
  | .xri d, s, u => u = s.setAc (s.ac ^^^ d)
  | .dai d, s, u => u = decimalAddToAc d s
  | .adi d, s, u => u = addToAc d s
  | .cai d, s, u => u = complementAddToAc d s
  | .sio, s, u =>
    u = ((s.setE (shiftIn s.inputs.serialIn s.e)).setSout (bitZero s.e)).emit (.serialOut (bitZero s.e))
  | .sr, s, u => u = s.setAc (shiftIn false s.ac)
  | .srl, s, u => u = s.setAc (shiftIn s.sr.cyl s.ac)
  | .rr, s, u => u = s.setAc (shiftIn (bitZero s.ac) s.ac)
  | .rrl, s, u => u = (s.setAc (shiftIn s.sr.cyl s.ac)).setCyl (bitZero s.ac)
  | .ild p d, s, u => u = updateMemory (fun v => v + 1#8) p d s
  | .dld p d, s, u => u = updateMemory (fun v => v - 1#8) p d s
  | .jmp p d, s, u => u = branchIf true p d s
  | .jp p d, s, u => u = branchIf (!s.ac.msb) p d s
  | .jz p d, s, u => u = branchIf (s.ac == 0x00#8) p d s
  | .jnz p d, s, u => u = branchIf (s.ac != 0x00#8) p d s
  | .lde, s, u => u = s.setAc s.e
  | .xae, s, u => u = (s.setAc s.e).setE s.ac
  | .ane, s, u => u = s.setAc (s.ac &&& s.e)
  | .ore, s, u => u = s.setAc (s.ac ||| s.e)
  | .xre, s, u => u = s.setAc (s.ac ^^^ s.e)
  | .ade, s, u => u = addToAc s.e s
  | .cae, s, u => u = complementAddToAc s.e s
  | .dae, s, u => u = decimalAddToAc s.e s
  | .xpal p, s, u => u = (s.setPtr p (highByte (s.ptr p) ++ s.ac)).setAc (lowByte (s.ptr p))
  | .xpah p, s, u => u = (s.setPtr p (s.ac ++ lowByte (s.ptr p))).setAc (highByte (s.ptr p))
  | .xppc p, s, u => u = exchangePc p s
  | .halt, s, u => u = s.emit .haltPulse
  | .nop, s, u => u = s
  | .ccl, s, u => u = s.setCyl false
  | .scl, s, u => u = s.setCyl true
  | .ien, s, u => u = (s.setIe true).setIenPending (s.ienPending || Config.ienLatencyOne)
  | .dint, s, u => u = s.setIe false
  | .csa, s, u => u = s.setAc (s.sr.toByte s.inputs.senseB s.inputs.senseA)
  | .cas, s, u =>
    u = ((s.setSr (Status.ofByte s.ac)).setIenPending (s.ienPending || casSkipsCheck s)).emit
      (.flags (s.ac.getLsbD 2) (s.ac.getLsbD 1) (s.ac.getLsbD 0))
  | .dly d, s, u => u = (s.emit (.delayStart (delayCycles s.ac d))).setAc 0xFF#8

theorem execSt_next {m : IndexMode} {p : Ptr} {d : Byte} {s u : State} (h : execSt m p d s = .next u) :
    ∃ a t, eaMem m p d s = some (a, t) ∧ u = memWrite a t.ac t := by
  unfold execSt at h
  split at h
  · cases h
  · rename_i a t heq
    exact ⟨a, t, heq, by injection h with h; exact h.symm⟩

/-- The inversion of `exec`: a next state is the one its instruction names. -/
theorem exec_next {i : Instr} {s u : State} (h : exec i s = .next u) : ExecNext i s u := by
  cases i
  case ld m p d => exact withOperand_next (f := fun v t => t.setAc v) h
  case st m p d => exact execSt_next h
  case and m p d => exact withOperand_next (f := fun v t => t.setAc (t.ac &&& v)) h
  case or m p d => exact withOperand_next (f := fun v t => t.setAc (t.ac ||| v)) h
  case xor m p d => exact withOperand_next (f := fun v t => t.setAc (t.ac ^^^ v)) h
  case dad m p d => exact withOperand_next h
  case add m p d => exact withOperand_next h
  case cad m p d => exact withOperand_next h
  all_goals (injection h with h; exact h.symm)

/-- No arm answers a fault: the fault type has no constructor. -/
theorem exec_no_fault (i : Instr) (s : State) (r : Fault) : exec i s ≠ .fault r := nomatch r

/-! Fields left alone -/

@[simp] theorem addToAc_e (b : Byte) (s : State) : (addToAc b s).e = s.e := rfl
@[simp] theorem addToAc_p0 (b : Byte) (s : State) : (addToAc b s).p0 = s.p0 := rfl
@[simp] theorem addToAc_p1 (b : Byte) (s : State) : (addToAc b s).p1 = s.p1 := rfl
@[simp] theorem addToAc_p2 (b : Byte) (s : State) : (addToAc b s).p2 = s.p2 := rfl
@[simp] theorem addToAc_p3 (b : Byte) (s : State) : (addToAc b s).p3 = s.p3 := rfl
@[simp] theorem addToAc_running (b : Byte) (s : State) : (addToAc b s).running = s.running := rfl
@[simp] theorem addToAc_ienPending (b : Byte) (s : State) : (addToAc b s).ienPending = s.ienPending := rfl
@[simp] theorem addToAc_sout (b : Byte) (s : State) : (addToAc b s).sout = s.sout := rfl
@[simp] theorem addToAc_mem (b : Byte) (s : State) : (addToAc b s).mem = s.mem := rfl
@[simp] theorem addToAc_memmap (b : Byte) (s : State) : (addToAc b s).memmap = s.memmap := rfl
@[simp] theorem addToAc_pageMask (b : Byte) (s : State) : (addToAc b s).pageMask = s.pageMask := rfl
@[simp] theorem addToAc_place (b : Byte) (s : State) (z : Word) : (addToAc b s).place z = s.place z :=
  State.place_congr (addToAc_pageMask b s) z
@[simp] theorem addToAc_events (b : Byte) (s : State) : (addToAc b s).events = s.events := rfl
@[simp] theorem addToAc_script (b : Byte) (s : State) : (addToAc b s).script = s.script := rfl
@[simp] theorem addToAc_tick (b : Byte) (s : State) : (addToAc b s).tick = s.tick := rfl

@[simp] theorem complementAddToAc_e (b : Byte) (s : State) : (complementAddToAc b s).e = s.e := rfl
@[simp] theorem complementAddToAc_p0 (b : Byte) (s : State) : (complementAddToAc b s).p0 = s.p0 := rfl
@[simp] theorem complementAddToAc_p1 (b : Byte) (s : State) : (complementAddToAc b s).p1 = s.p1 := rfl
@[simp] theorem complementAddToAc_p2 (b : Byte) (s : State) : (complementAddToAc b s).p2 = s.p2 := rfl
@[simp] theorem complementAddToAc_p3 (b : Byte) (s : State) : (complementAddToAc b s).p3 = s.p3 := rfl
@[simp] theorem complementAddToAc_running (b : Byte) (s : State) : (complementAddToAc b s).running = s.running := rfl
@[simp] theorem complementAddToAc_ienPending (b : Byte) (s : State) : (complementAddToAc b s).ienPending = s.ienPending := rfl
@[simp] theorem complementAddToAc_sout (b : Byte) (s : State) : (complementAddToAc b s).sout = s.sout := rfl
@[simp] theorem complementAddToAc_mem (b : Byte) (s : State) : (complementAddToAc b s).mem = s.mem := rfl
@[simp] theorem complementAddToAc_memmap (b : Byte) (s : State) : (complementAddToAc b s).memmap = s.memmap := rfl
@[simp] theorem complementAddToAc_pageMask (b : Byte) (s : State) : (complementAddToAc b s).pageMask = s.pageMask := rfl
@[simp] theorem complementAddToAc_place (b : Byte) (s : State) (z : Word) : (complementAddToAc b s).place z = s.place z :=
  State.place_congr (complementAddToAc_pageMask b s) z
@[simp] theorem complementAddToAc_events (b : Byte) (s : State) : (complementAddToAc b s).events = s.events := rfl
@[simp] theorem complementAddToAc_script (b : Byte) (s : State) : (complementAddToAc b s).script = s.script := rfl
@[simp] theorem complementAddToAc_tick (b : Byte) (s : State) : (complementAddToAc b s).tick = s.tick := rfl

@[simp] theorem decimalAddToAc_e (b : Byte) (s : State) : (decimalAddToAc b s).e = s.e := rfl
@[simp] theorem decimalAddToAc_p0 (b : Byte) (s : State) : (decimalAddToAc b s).p0 = s.p0 := rfl
@[simp] theorem decimalAddToAc_p1 (b : Byte) (s : State) : (decimalAddToAc b s).p1 = s.p1 := rfl
@[simp] theorem decimalAddToAc_p2 (b : Byte) (s : State) : (decimalAddToAc b s).p2 = s.p2 := rfl
@[simp] theorem decimalAddToAc_p3 (b : Byte) (s : State) : (decimalAddToAc b s).p3 = s.p3 := rfl
@[simp] theorem decimalAddToAc_running (b : Byte) (s : State) : (decimalAddToAc b s).running = s.running := rfl
@[simp] theorem decimalAddToAc_ienPending (b : Byte) (s : State) : (decimalAddToAc b s).ienPending = s.ienPending := rfl
@[simp] theorem decimalAddToAc_sout (b : Byte) (s : State) : (decimalAddToAc b s).sout = s.sout := rfl
@[simp] theorem decimalAddToAc_mem (b : Byte) (s : State) : (decimalAddToAc b s).mem = s.mem := rfl
@[simp] theorem decimalAddToAc_memmap (b : Byte) (s : State) : (decimalAddToAc b s).memmap = s.memmap := rfl
@[simp] theorem decimalAddToAc_pageMask (b : Byte) (s : State) : (decimalAddToAc b s).pageMask = s.pageMask := rfl
@[simp] theorem decimalAddToAc_place (b : Byte) (s : State) (z : Word) : (decimalAddToAc b s).place z = s.place z :=
  State.place_congr (decimalAddToAc_pageMask b s) z
@[simp] theorem decimalAddToAc_events (b : Byte) (s : State) : (decimalAddToAc b s).events = s.events := rfl
@[simp] theorem decimalAddToAc_script (b : Byte) (s : State) : (decimalAddToAc b s).script = s.script := rfl
@[simp] theorem decimalAddToAc_tick (b : Byte) (s : State) : (decimalAddToAc b s).tick = s.tick := rfl

@[simp] theorem updateMemory_e (f : Byte → Byte) (p : Ptr) (d : Byte) (s : State) : (updateMemory f p d s).e = s.e := by simp [updateMemory]
@[simp] theorem updateMemory_sr (f : Byte → Byte) (p : Ptr) (d : Byte) (s : State) : (updateMemory f p d s).sr = s.sr := by simp [updateMemory]
@[simp] theorem updateMemory_p0 (f : Byte → Byte) (p : Ptr) (d : Byte) (s : State) : (updateMemory f p d s).p0 = s.p0 := by simp [updateMemory]
@[simp] theorem updateMemory_p1 (f : Byte → Byte) (p : Ptr) (d : Byte) (s : State) : (updateMemory f p d s).p1 = s.p1 := by simp [updateMemory]
@[simp] theorem updateMemory_p2 (f : Byte → Byte) (p : Ptr) (d : Byte) (s : State) : (updateMemory f p d s).p2 = s.p2 := by simp [updateMemory]
@[simp] theorem updateMemory_p3 (f : Byte → Byte) (p : Ptr) (d : Byte) (s : State) : (updateMemory f p d s).p3 = s.p3 := by simp [updateMemory]
@[simp] theorem updateMemory_running (f : Byte → Byte) (p : Ptr) (d : Byte) (s : State) : (updateMemory f p d s).running = s.running := by simp [updateMemory]
@[simp] theorem updateMemory_ienPending (f : Byte → Byte) (p : Ptr) (d : Byte) (s : State) : (updateMemory f p d s).ienPending = s.ienPending := by simp [updateMemory]
@[simp] theorem updateMemory_sout (f : Byte → Byte) (p : Ptr) (d : Byte) (s : State) : (updateMemory f p d s).sout = s.sout := by simp [updateMemory]
@[simp] theorem updateMemory_memmap (f : Byte → Byte) (p : Ptr) (d : Byte) (s : State) : (updateMemory f p d s).memmap = s.memmap := by simp [updateMemory]
@[simp] theorem updateMemory_pageMask (f : Byte → Byte) (p : Ptr) (d : Byte) (s : State) : (updateMemory f p d s).pageMask = s.pageMask := by simp [updateMemory]
@[simp] theorem updateMemory_place (f : Byte → Byte) (p : Ptr) (d : Byte) (s : State) (z : Word) : (updateMemory f p d s).place z = s.place z :=
  State.place_congr (updateMemory_pageMask f p d s) z
@[simp] theorem updateMemory_script (f : Byte → Byte) (p : Ptr) (d : Byte) (s : State) : (updateMemory f p d s).script = s.script := by simp [updateMemory]
@[simp] theorem updateMemory_tick (f : Byte → Byte) (p : Ptr) (d : Byte) (s : State) : (updateMemory f p d s).tick = s.tick := by simp [updateMemory]

@[simp] theorem branchIf_ac (b : Bool) (p : Ptr) (d : Byte) (s : State) : (branchIf b p d s).ac = s.ac := by cases b <;> rfl
@[simp] theorem branchIf_e (b : Bool) (p : Ptr) (d : Byte) (s : State) : (branchIf b p d s).e = s.e := by cases b <;> rfl
@[simp] theorem branchIf_sr (b : Bool) (p : Ptr) (d : Byte) (s : State) : (branchIf b p d s).sr = s.sr := by cases b <;> rfl
@[simp] theorem branchIf_p1 (b : Bool) (p : Ptr) (d : Byte) (s : State) : (branchIf b p d s).p1 = s.p1 := by cases b <;> rfl
@[simp] theorem branchIf_p2 (b : Bool) (p : Ptr) (d : Byte) (s : State) : (branchIf b p d s).p2 = s.p2 := by cases b <;> rfl
@[simp] theorem branchIf_p3 (b : Bool) (p : Ptr) (d : Byte) (s : State) : (branchIf b p d s).p3 = s.p3 := by cases b <;> rfl
@[simp] theorem branchIf_running (b : Bool) (p : Ptr) (d : Byte) (s : State) : (branchIf b p d s).running = s.running := by cases b <;> rfl
@[simp] theorem branchIf_ienPending (b : Bool) (p : Ptr) (d : Byte) (s : State) : (branchIf b p d s).ienPending = s.ienPending := by cases b <;> rfl
@[simp] theorem branchIf_sout (b : Bool) (p : Ptr) (d : Byte) (s : State) : (branchIf b p d s).sout = s.sout := by cases b <;> rfl
@[simp] theorem branchIf_mem (b : Bool) (p : Ptr) (d : Byte) (s : State) : (branchIf b p d s).mem = s.mem := by cases b <;> rfl
@[simp] theorem branchIf_memmap (b : Bool) (p : Ptr) (d : Byte) (s : State) : (branchIf b p d s).memmap = s.memmap := by cases b <;> rfl
@[simp] theorem branchIf_pageMask (b : Bool) (p : Ptr) (d : Byte) (s : State) : (branchIf b p d s).pageMask = s.pageMask := by cases b <;> rfl
@[simp] theorem branchIf_place (b : Bool) (p : Ptr) (d : Byte) (s : State) (z : Word) : (branchIf b p d s).place z = s.place z :=
  State.place_congr (branchIf_pageMask b p d s) z
@[simp] theorem branchIf_events (b : Bool) (p : Ptr) (d : Byte) (s : State) : (branchIf b p d s).events = s.events := by cases b <;> rfl
@[simp] theorem branchIf_script (b : Bool) (p : Ptr) (d : Byte) (s : State) : (branchIf b p d s).script = s.script := by cases b <;> rfl
@[simp] theorem branchIf_tick (b : Bool) (p : Ptr) (d : Byte) (s : State) : (branchIf b p d s).tick = s.tick := by cases b <;> rfl

/-- A binary add writes only CY/L and OV of SR. -/
theorem addToAc_sr (b : Byte) (s : State) :
    (addToAc b s).sr =
      { s.sr with cyl := (addBin s.ac b s.sr.cyl).carry, ov := (addBin s.ac b s.sr.cyl).overflow } := rfl

/-- Complement-and-add writes only CY/L and OV of SR. -/
theorem complementAddToAc_sr (b : Byte) (s : State) :
    (complementAddToAc b s).sr =
      { s.sr with cyl := (addBin s.ac (~~~b) s.sr.cyl).carry, ov := (addBin s.ac (~~~b) s.sr.cyl).overflow } := rfl

/-- A decimal add writes only CY/L of SR. -/
theorem decimalAddToAc_sr (b : Byte) (s : State) :
    (decimalAddToAc b s).sr = { s.sr with cyl := (addDec s.ac b s.sr.cyl s.drawnDecimal).carry } := rfl

/-- A branch writes the PC, or nothing. -/
theorem branchIf_p0 (b : Bool) (p : Ptr) (d : Byte) (s : State) :
    (branchIf b p d s).p0 = if b then eaJump p d s else s.p0 := by cases b <;> rfl

/-- The memory after ILD or DLD. -/
theorem updateMemory_mem (f : Byte → Byte) (p : Ptr) (d : Byte) (s : State) :
    (updateMemory f p d s).mem = (storeByte (eaPlain p d s) (f (dataRead (eaPlain p d s) s).1) s).mem := by
  simp [updateMemory, memWrite_mem, storeByte_mem]

end Sys2Proof.Machine
end

