-- ==== Sys2Proof/Laws/Flags.lean ====
section
/-! SUPPORT. What the adders, the shifts, the branch displacement and the packing of SR can do, said once in terms of
numbers; and that every operation on memory keeps its canonical form. -/

namespace Sys2Proof.Machine

/-! Shifts -/

theorem shiftIn_toNat (x : Bool) (v : Byte) : (shiftIn x v).toNat = 128 * x.toNat + v.toNat / 2 := by
  revert x v; decide

theorem bitZero_toNat (v : Byte) : (bitZero v).toNat = v.toNat % 2 := by revert v; decide

theorem bitZero_iff (v : Byte) : bitZero v = true ↔ v.toNat % 2 = 1 := by revert v; decide

/-! Binary sums -/

theorem addBin_result_toNat (a b : Byte) (c : Bool) :
    (addBin a b c).result.toNat = (a.toNat + b.toNat + c.toNat) % 256 := by
  simp [addBin, addBinResult, sumNat]

theorem addBin_carry_iff (a b : Byte) (c : Bool) :
    (addBin a b c).carry = true ↔ 256 ≤ a.toNat + b.toNat + c.toNat := by
  simp only [addBin, sumNat]
  exact decide_eq_true_iff

theorem addBin_overflow_iff (a b : Byte) (c : Bool) :
    (addBin a b c).overflow = true ↔
      a.toInt + b.toInt + c.toNat < -128 ∨ 127 < a.toInt + b.toInt + c.toNat := by
  simp only [addBin, addBinResult, sumNat, BitVec.msb_eq_decide, BitVec.toInt_eq_toNat_cond]
  have ha := a.isLt
  have hb := b.isLt
  cases c <;> simp <;> by_cases h1 : 128 ≤ a.toNat <;> by_cases h2 : 128 ≤ b.toNat <;> simp [h1, h2] <;> omega

theorem complement_toInt (b : Byte) : (~~~b).toInt = -b.toInt - 1 := by revert b; decide

/-! Decimal sums -/

theorem units_append (x y : BitVec 4) : units (x ++ y) = y.toNat := by
  simp only [units, bitField]; rw [BitVec.extractLsb'_append_eq_right]

theorem tens_append (x y : BitVec 4) : tens (x ++ y) = x.toNat := by
  simp only [tens, bitField]; rw [BitVec.extractLsb'_append_eq_left]

/-- One digit and its carry are the sum, and the digit is a digit. -/
theorem decDigit_value {n : Nat} (h : n < 20) :
    (decDigit n).1.toNat + 10 * (decDigit n).2.toNat = n ∧ (decDigit n).1.toNat ≤ 9 := by
  unfold decDigit; split <;> simp <;> omega

theorem addDec_digits {a b : Byte} (c : Bool) (x : DecSum) (ha : isBcd a = true) (hb : isBcd b = true) :
    addDec a b c x = addDecDigits a b c := by simp [addDec, ha, hb]

theorem addDec_drawn {a b : Byte} (c : Bool) (x : DecSum) (h : (isBcd a && isBcd b) = false) : addDec a b c x = x := by
  simp [addDec, h]

/-! SR as a byte -/

/-- Packing the stored bits of a byte gives it back with bits 5 and 4 replaced. -/
theorem ofByte_toByte (v : Byte) (sb sa : Bool) :
    ((Status.ofByte v).toByte sb sa).toNat = (v &&& 0xCF#8).toNat + 32 * sb.toNat + 16 * sa.toNat := by
  revert v sb sa; decide

/-! Branches -/

theorem eaJump_of_ne {d : Byte} (h : d ≠ 0x80#8) (p : Ptr) (s : State) : eaJump p d s = add12 (s.ptr p) d.toInt := by
  simp [eaJump, jumpDisp, h]

/-- What a branch with byte `0x80` adds, in every state. -/
theorem jumpDisp_disp80 :
    (∀ s : State, jumpDisp 0x80#8 s = s.e.toInt) ∨ (∀ s : State, jumpDisp 0x80#8 s = -128) := by
  cases h : Config.jumpDisp80
  · left; intro s; simp [jumpDisp, h]
  · right; intro s; simp [jumpDisp, h]

/-! The canonical form of memory -/

theorem storeByte_wf {a : Word} {v : Byte} {s : State} (h : Memory.wf s.mem = true) :
    Memory.wf (storeByte a v s).mem = true := by
  rw [storeByte_mem]; split
  · exact Memory.wf_write h (s.place a).isLt
  · exact h

theorem memWrite_wf {a : Word} {v : Byte} {s : State} (h : Memory.wf s.mem = true) :
    Memory.wf (memWrite a v s).mem = true := by rw [memWrite_mem]; exact storeByte_wf h

/-- What a write does to the bytes: in RAM every address of the same place reads it, every other reads as before. -/
theorem storeByte_byteAt {a : Word} {v : Byte} {s : State} (hw : Memory.wf s.mem = true) (b : Word) :
    (storeByte a v s).byteAt b = if s.kindOf a = .ram ∧ s.place b = s.place a then v else s.byteAt b := by
  simp only [State.byteAt, storeByte_mem, storeByte_place]
  by_cases hr : s.kindOf a = .ram
  · by_cases hp : s.place b = s.place a
    · simp [hr, hp, Memory.read_write_same hw]
    · simpa [hr, hp] using Memory.read_write_other (fun x => hp (BitVec.eq_of_toNat_eq x))
  · simp [hr]

theorem memWrite_byteAt {a : Word} {v : Byte} {s : State} (hw : Memory.wf s.mem = true) (b : Word) :
    (memWrite a v s).byteAt b = if s.kindOf a = .ram ∧ s.place b = s.place a then v else s.byteAt b := by
  rw [← storeByte_byteAt hw]
  simp [State.byteAt, memWrite_mem]

/-- A write leaves every address that is not RAM as it was. -/
theorem storeByte_nonRam {a b : Word} {v : Byte} {s : State} (h : s.kindOf b ≠ .ram) :
    (storeByte a v s).byteAt b = s.byteAt b := by
  simp only [State.byteAt, storeByte_mem, storeByte_place]
  split
  · rename_i hr
    have hne : s.place b ≠ s.place a := fun hp => h (State.kindOf_congr hp ▸ hr)
    exact Memory.read_write_other (fun x => hne (BitVec.eq_of_toNat_eq x))
  · rfl

/-- What an instruction can do to memory: nothing, or one write. -/
theorem exec_mem {i : Instr} {s t : State} (h : exec i s = .next t) :
    t.mem = s.mem ∨ ∃ a v, t.mem = (storeByte a v s).mem := by
  have h := exec_next h
  cases i <;> simp only [ExecNext, AfterRead] at h
  case st =>
    obtain ⟨a, r, he, rfl⟩ := h
    right; refine ⟨a, r.ac, ?_⟩
    have hk : r.kindOf a = s.kindOf a := by
      simp [State.kindOf, State.place, eaMem_memmap he, eaMem_pageMask he]
    rw [memWrite_mem, storeByte_mem, storeByte_mem, hk, eaMem_mem he, eaMem_place he]
  case ild => subst h; right; exact ⟨_, _, updateMemory_mem _ _ _ _⟩
  case dld => subst h; right; exact ⟨_, _, updateMemory_mem _ _ _ _⟩
  all_goals first
    | (obtain ⟨a, r, he, rfl⟩ := h; left; simp [eaMem_mem he])
    | (subst h; left; simp)

theorem exec_wf {i : Instr} {s t : State} (h : exec i s = .next t) (hw : Memory.wf s.mem = true) :
    Memory.wf t.mem = true := by
  rcases exec_mem h with hm | ⟨a, v, hm⟩ <;> rw [hm]
  · exact hw
  · exact storeByte_wf hw

theorem reset_memory_wf : Memory.wf State.reset.mem = true := rfl

end Sys2Proof.Machine
end

