-- ==== Sys2Proof/Laws/PerInstr.lean ====
section
/-! SUPPORT. Facts about every instruction as syntax, one lemma per constructor. -/

namespace Sys2Proof.Laws

/-- "Bit 7 of the first byte decides: 0 means a one-byte instruction, 1 means a two-byte instruction"
(spec/30_encoding.md R80): the encoding is not empty, and its length is what bit 7 of its first byte says. -/
def LengthByBit7.Statement (i : Instr) : Prop :=
  ∃ op rest, encode i = op :: rest ∧ (encode i).length = if isTwoByte op then 2 else 1

theorem LengthByBit7.ld (m : IndexMode) (p : Ptr) (d : Byte) : LengthByBit7.Statement (.ld m p d) := by
  cases m <;> cases p <;> exact ⟨_, _, rfl, rfl⟩

theorem LengthByBit7.st (m : IndexMode) (p : Ptr) (d : Byte) : LengthByBit7.Statement (.st m p d) := by
  cases m <;> cases p <;> exact ⟨_, _, rfl, rfl⟩

theorem LengthByBit7.and (m : IndexMode) (p : Ptr) (d : Byte) : LengthByBit7.Statement (.and m p d) := by
  cases m <;> cases p <;> exact ⟨_, _, rfl, rfl⟩

theorem LengthByBit7.or (m : IndexMode) (p : Ptr) (d : Byte) : LengthByBit7.Statement (.or m p d) := by
  cases m <;> cases p <;> exact ⟨_, _, rfl, rfl⟩

theorem LengthByBit7.xor (m : IndexMode) (p : Ptr) (d : Byte) : LengthByBit7.Statement (.xor m p d) := by
  cases m <;> cases p <;> exact ⟨_, _, rfl, rfl⟩

theorem LengthByBit7.dad (m : IndexMode) (p : Ptr) (d : Byte) : LengthByBit7.Statement (.dad m p d) := by
  cases m <;> cases p <;> exact ⟨_, _, rfl, rfl⟩

theorem LengthByBit7.add (m : IndexMode) (p : Ptr) (d : Byte) : LengthByBit7.Statement (.add m p d) := by
  cases m <;> cases p <;> exact ⟨_, _, rfl, rfl⟩

theorem LengthByBit7.cad (m : IndexMode) (p : Ptr) (d : Byte) : LengthByBit7.Statement (.cad m p d) := by
  cases m <;> cases p <;> exact ⟨_, _, rfl, rfl⟩

theorem LengthByBit7.ldi (d : Byte) : LengthByBit7.Statement (.ldi d) := ⟨_, _, rfl, rfl⟩

theorem LengthByBit7.ani (d : Byte) : LengthByBit7.Statement (.ani d) := ⟨_, _, rfl, rfl⟩

theorem LengthByBit7.ori (d : Byte) : LengthByBit7.Statement (.ori d) := ⟨_, _, rfl, rfl⟩

theorem LengthByBit7.xri (d : Byte) : LengthByBit7.Statement (.xri d) := ⟨_, _, rfl, rfl⟩

theorem LengthByBit7.dai (d : Byte) : LengthByBit7.Statement (.dai d) := ⟨_, _, rfl, rfl⟩

theorem LengthByBit7.adi (d : Byte) : LengthByBit7.Statement (.adi d) := ⟨_, _, rfl, rfl⟩

theorem LengthByBit7.cai (d : Byte) : LengthByBit7.Statement (.cai d) := ⟨_, _, rfl, rfl⟩

theorem LengthByBit7.sio : LengthByBit7.Statement .sio := ⟨_, _, rfl, rfl⟩

theorem LengthByBit7.sr : LengthByBit7.Statement .sr := ⟨_, _, rfl, rfl⟩

theorem LengthByBit7.srl : LengthByBit7.Statement .srl := ⟨_, _, rfl, rfl⟩

theorem LengthByBit7.rr : LengthByBit7.Statement .rr := ⟨_, _, rfl, rfl⟩

theorem LengthByBit7.rrl : LengthByBit7.Statement .rrl := ⟨_, _, rfl, rfl⟩

theorem LengthByBit7.ild (p : Ptr) (d : Byte) : LengthByBit7.Statement (.ild p d) := by
  cases p <;> exact ⟨_, _, rfl, rfl⟩

theorem LengthByBit7.dld (p : Ptr) (d : Byte) : LengthByBit7.Statement (.dld p d) := by
  cases p <;> exact ⟨_, _, rfl, rfl⟩

theorem LengthByBit7.jmp (p : Ptr) (d : Byte) : LengthByBit7.Statement (.jmp p d) := by
  cases p <;> exact ⟨_, _, rfl, rfl⟩

theorem LengthByBit7.jp (p : Ptr) (d : Byte) : LengthByBit7.Statement (.jp p d) := by
  cases p <;> exact ⟨_, _, rfl, rfl⟩

theorem LengthByBit7.jz (p : Ptr) (d : Byte) : LengthByBit7.Statement (.jz p d) := by
  cases p <;> exact ⟨_, _, rfl, rfl⟩

theorem LengthByBit7.jnz (p : Ptr) (d : Byte) : LengthByBit7.Statement (.jnz p d) := by
  cases p <;> exact ⟨_, _, rfl, rfl⟩

theorem LengthByBit7.lde : LengthByBit7.Statement .lde := ⟨_, _, rfl, rfl⟩

theorem LengthByBit7.xae : LengthByBit7.Statement .xae := ⟨_, _, rfl, rfl⟩

theorem LengthByBit7.ane : LengthByBit7.Statement .ane := ⟨_, _, rfl, rfl⟩

theorem LengthByBit7.ore : LengthByBit7.Statement .ore := ⟨_, _, rfl, rfl⟩

theorem LengthByBit7.xre : LengthByBit7.Statement .xre := ⟨_, _, rfl, rfl⟩

theorem LengthByBit7.ade : LengthByBit7.Statement .ade := ⟨_, _, rfl, rfl⟩

theorem LengthByBit7.cae : LengthByBit7.Statement .cae := ⟨_, _, rfl, rfl⟩

theorem LengthByBit7.dae : LengthByBit7.Statement .dae := ⟨_, _, rfl, rfl⟩

theorem LengthByBit7.xpal (p : Ptr) : LengthByBit7.Statement (.xpal p) := by
  cases p <;> exact ⟨_, _, rfl, rfl⟩

theorem LengthByBit7.xpah (p : Ptr) : LengthByBit7.Statement (.xpah p) := by
  cases p <;> exact ⟨_, _, rfl, rfl⟩

theorem LengthByBit7.xppc (p : Ptr) : LengthByBit7.Statement (.xppc p) := by
  cases p <;> exact ⟨_, _, rfl, rfl⟩

theorem LengthByBit7.halt : LengthByBit7.Statement .halt := ⟨_, _, rfl, rfl⟩

theorem LengthByBit7.nop : LengthByBit7.Statement .nop := ⟨_, _, rfl, rfl⟩

theorem LengthByBit7.ccl : LengthByBit7.Statement .ccl := ⟨_, _, rfl, rfl⟩

theorem LengthByBit7.scl : LengthByBit7.Statement .scl := ⟨_, _, rfl, rfl⟩

theorem LengthByBit7.ien : LengthByBit7.Statement .ien := ⟨_, _, rfl, rfl⟩

theorem LengthByBit7.dint : LengthByBit7.Statement .dint := ⟨_, _, rfl, rfl⟩

theorem LengthByBit7.csa : LengthByBit7.Statement .csa := ⟨_, _, rfl, rfl⟩

theorem LengthByBit7.cas : LengthByBit7.Statement .cas := ⟨_, _, rfl, rfl⟩

theorem LengthByBit7.dly (d : Byte) : LengthByBit7.Statement (.dly d) := ⟨_, _, rfl, rfl⟩

end Sys2Proof.Laws
end

