-- ==== Sys2Proof/Laws/Step.lean ====
section
/-! SUPPORT. What a step can do, said once: an event of the environment, or the fetched instruction's effect. -/

namespace Sys2Proof.Machine

/-! The fetch -/

@[simp] theorem fetchByte_ac (x : Byte) (s : State) : (fetchByte x s).2.ac = s.ac := by simp [fetchByte]
@[simp] theorem fetchByte_e (x : Byte) (s : State) : (fetchByte x s).2.e = s.e := by simp [fetchByte]
@[simp] theorem fetchByte_sr (x : Byte) (s : State) : (fetchByte x s).2.sr = s.sr := by simp [fetchByte]
@[simp] theorem fetchByte_p1 (x : Byte) (s : State) : (fetchByte x s).2.p1 = s.p1 := by simp [fetchByte]
@[simp] theorem fetchByte_p2 (x : Byte) (s : State) : (fetchByte x s).2.p2 = s.p2 := by simp [fetchByte]
@[simp] theorem fetchByte_p3 (x : Byte) (s : State) : (fetchByte x s).2.p3 = s.p3 := by simp [fetchByte]
@[simp] theorem fetchByte_running (x : Byte) (s : State) : (fetchByte x s).2.running = s.running := by simp [fetchByte]
@[simp] theorem fetchByte_ienPending (x : Byte) (s : State) : (fetchByte x s).2.ienPending = s.ienPending := by simp [fetchByte]
@[simp] theorem fetchByte_sout (x : Byte) (s : State) : (fetchByte x s).2.sout = s.sout := by simp [fetchByte]
@[simp] theorem fetchByte_mem (x : Byte) (s : State) : (fetchByte x s).2.mem = s.mem := by simp [fetchByte]
@[simp] theorem fetchByte_memmap (x : Byte) (s : State) : (fetchByte x s).2.memmap = s.memmap := by simp [fetchByte]
@[simp] theorem fetchByte_pageMask (x : Byte) (s : State) : (fetchByte x s).2.pageMask = s.pageMask := by simp [fetchByte]
@[simp] theorem fetchByte_place (x : Byte) (s : State) (z : Word) : (fetchByte x s).2.place z = s.place z :=
  State.place_congr (fetchByte_pageMask x s) z
@[simp] theorem fetchByte_script (x : Byte) (s : State) : (fetchByte x s).2.script = s.script := by simp [fetchByte]
@[simp] theorem fetchByte_tick (x : Byte) (s : State) : (fetchByte x s).2.tick = s.tick := by simp [fetchByte]
@[simp] theorem fetchByte_p0 (x : Byte) (s : State) : (fetchByte x s).2.p0 = inc12 s.p0 := by simp [fetchByte]
@[simp] theorem fetchByte_inputs (x : Byte) (s : State) : (fetchByte x s).2.inputs = s.inputs := by simp [State.inputs]

/-- A fetch records nothing, or the read of a device. -/
theorem fetchByte_events (x : Byte) (s : State) :
    ∃ new, (fetchByte x s).2.events = s.events ++ new := by
  simp only [fetchByte, busRead_state]
  split
  · exact ⟨_, rfl⟩
  · exact ⟨[], by simp⟩

/-- The two shapes of a fetch (spec/10_state.md R33 parts 2 to 4). -/
theorem fetchBytes_eq (s : State) :
    fetchBytes s =
      if isTwoByte (fetchByte s.inputs.fetchByte1 s).1 then
        ([(fetchByte s.inputs.fetchByte1 s).1,
          (fetchByte s.inputs.fetchByte2 (fetchByte s.inputs.fetchByte1 s).2).1],
          (fetchByte s.inputs.fetchByte2 (fetchByte s.inputs.fetchByte1 s).2).2)
      else ([(fetchByte s.inputs.fetchByte1 s).1], (fetchByte s.inputs.fetchByte1 s).2) := rfl

@[simp] theorem fetchBytes_ac (s : State) : (fetchBytes s).2.ac = s.ac := by
  rw [fetchBytes_eq]; split <;> simp
@[simp] theorem fetchBytes_e (s : State) : (fetchBytes s).2.e = s.e := by
  rw [fetchBytes_eq]; split <;> simp
@[simp] theorem fetchBytes_sr (s : State) : (fetchBytes s).2.sr = s.sr := by
  rw [fetchBytes_eq]; split <;> simp
@[simp] theorem fetchBytes_p1 (s : State) : (fetchBytes s).2.p1 = s.p1 := by
  rw [fetchBytes_eq]; split <;> simp
@[simp] theorem fetchBytes_p2 (s : State) : (fetchBytes s).2.p2 = s.p2 := by
  rw [fetchBytes_eq]; split <;> simp
@[simp] theorem fetchBytes_p3 (s : State) : (fetchBytes s).2.p3 = s.p3 := by
  rw [fetchBytes_eq]; split <;> simp
@[simp] theorem fetchBytes_running (s : State) : (fetchBytes s).2.running = s.running := by
  rw [fetchBytes_eq]; split <;> simp
@[simp] theorem fetchBytes_ienPending (s : State) : (fetchBytes s).2.ienPending = s.ienPending := by
  rw [fetchBytes_eq]; split <;> simp
@[simp] theorem fetchBytes_sout (s : State) : (fetchBytes s).2.sout = s.sout := by
  rw [fetchBytes_eq]; split <;> simp
@[simp] theorem fetchBytes_mem (s : State) : (fetchBytes s).2.mem = s.mem := by
  rw [fetchBytes_eq]; split <;> simp
@[simp] theorem fetchBytes_memmap (s : State) : (fetchBytes s).2.memmap = s.memmap := by
  rw [fetchBytes_eq]; split <;> simp
@[simp] theorem fetchBytes_pageMask (s : State) : (fetchBytes s).2.pageMask = s.pageMask := by
  rw [fetchBytes_eq]; split <;> simp
@[simp] theorem fetchBytes_place (s : State) (a : Word) : (fetchBytes s).2.place a = s.place a :=
  State.place_congr (fetchBytes_pageMask s) a
@[simp] theorem fetchBytes_script (s : State) : (fetchBytes s).2.script = s.script := by
  rw [fetchBytes_eq]; split <;> simp
@[simp] theorem fetchBytes_tick (s : State) : (fetchBytes s).2.tick = s.tick := by
  rw [fetchBytes_eq]; split <;> simp
@[simp] theorem fetchBytes_inputs (s : State) : (fetchBytes s).2.inputs = s.inputs := by simp [State.inputs]

/-- The fetch leaves the PC in its page. -/
theorem fetchBytes_page (s : State) : pageOf (fetchBytes s).2.p0 = pageOf s.p0 := by
  rw [fetchBytes_eq]; split <;> simp [inc12, add12]

/-- The fetch only adds events. -/
theorem fetchBytes_events (s : State) : ∃ new, (fetchBytes s).2.events = s.events ++ new := by
  rw [fetchBytes_eq]
  obtain ⟨n1, h1⟩ := fetchByte_events s.inputs.fetchByte1 s
  split
  · obtain ⟨n2, h2⟩ := fetchByte_events s.inputs.fetchByte2 (fetchByte s.inputs.fetchByte1 s).2
    exact ⟨n1 ++ n2, by rw [h2, h1, List.append_assoc]⟩
  · exact ⟨n1, h1⟩

/-! The environment between steps -/

/-- The steps of the environment (entries 14 to 16). -/
theorem environmentStep_some {s t : State} (h : environmentStep s = some t) :
    (∃ rest, s.script = .nrst :: rest ∧ t = nrstReset s.dropEntry) ∨
    (∃ b rest, s.script = .cont b :: rest ∧ t = s.dropEntry.setRunning b) ∨
    (∃ a v rest, s.script = .otherMaster a v :: rest ∧ t = storeByte a v s.dropEntry) ∨
    (s.running = false ∧ t = s.dropEntry) := by
  unfold environmentStep at h
  split at h
  · rename_i rest heq; exact .inl ⟨rest, heq, by simpa using h.symm⟩
  · rename_i b rest heq; exact .inr (.inl ⟨b, rest, heq, by simpa using h.symm⟩)
  · rename_i a v rest heq; exact .inr (.inr (.inl ⟨a, v, rest, heq, by simpa using h.symm⟩))
  · split at h
    · cases h
    · rename_i hr; exact .inr (.inr (.inr ⟨by simpa using hr, by simpa using h.symm⟩))
  · split at h
    · cases h
    · rename_i hr; exact .inr (.inr (.inr ⟨by simpa using hr, by simpa using h.symm⟩))

/-- The inversion of `step`. -/
theorem step_next {s t : State} (h : step s = .next t) :
    environmentStep s = some t ∨
    (InstructionNext s ∧ ∃ i rest u, decode (fetchBytes (interruptCheck s)).1 = .ok (i, rest) ∧
      exec i (fetchBytes (interruptCheck s)).2 = .next u ∧ t = u.nextDraws) := by
  unfold step at h
  split at h
  · rename_i u heq
    injection h with h
    exact .inl (h ▸ heq)
  · rename_i heq
    refine .inr ⟨heq, ?_⟩
    unfold instructionStep fetchInstruction at h
    split at h
    · rename_i i u hd
      split at hd
      · rename_i j rest hj
        injection hd with hd
        injection hd with hi hu
        subst hi hu
        cases hx : exec j (fetchBytes (interruptCheck s)).2 with
        | next w =>
          rw [hx] at h
          injection h with h
          exact ⟨j, rest, w, hj, hx, h.symm⟩
        | fault r => exact nomatch r
        | refused r => rw [hx] at h; cases h
      · cases hd
    · cases h

end Sys2Proof.Machine
end

