-- ==== Sys2Proof/Tests/Slice0.lean ====
section
/-! SUPPORT. Tests. Expected values are the spec's: words written out from the encodings of spec/30_encoding.md R81 and
R87, the vectors of spec/95_test_vectors.md (named in each comment), and, last, one state and operands for each clause of
each obligation that has hypotheses. -/

namespace Sys2Proof.Tests

open Sys2Proof.Machine

/-! ## Ill-formed terms are refused (spec/30_encoding.md R83: no auto-indexed mode on the PC) -/

theorem test_illformed_ld : (Instr.ld .auto .p0 0x01#8).wellFormed = false := by decide
theorem test_illformed_st : (Instr.st .auto .p0 0x01#8).wellFormed = false := by decide
theorem test_illformed_and : (Instr.and .auto .p0 0x01#8).wellFormed = false := by decide
theorem test_illformed_or : (Instr.or .auto .p0 0x01#8).wellFormed = false := by decide
theorem test_illformed_xor : (Instr.xor .auto .p0 0x01#8).wellFormed = false := by decide
theorem test_illformed_dad : (Instr.dad .auto .p0 0x01#8).wellFormed = false := by decide
theorem test_illformed_add : (Instr.add .auto .p0 0x01#8).wellFormed = false := by decide
theorem test_illformed_cad : (Instr.cad .auto .p0 0x01#8).wellFormed = false := by decide
theorem test_wellformed_boundary :
    (Instr.ld .plain .p0 0x80#8).wellFormed = true ∧ (Instr.ld .auto .p1 0x80#8).wellFormed = true := by decide

/-! ## Words written out from the encodings (R81, R87) -/

/-- What a list of bytes decodes to, with the rest. -/
def reads (bs : List Byte) : Option (Instr × List Byte) :=
  match decode bs with
  | .ok x => some x
  | .error _ => none

/-- Format MR: `op5 m pp`, second byte. -/
theorem test_decode_memory_reference :
    reads [0b11000000#8, 0x05#8] = some (.ld .plain .p0 0x05#8, []) ∧
    reads [0b11001110#8, 0xFF#8] = some (.st .auto .p2 0xFF#8, []) ∧
    reads [0b11010001#8, 0x01#8] = some (.and .plain .p1 0x01#8, []) ∧
    reads [0b11011111#8, 0x02#8] = some (.or .auto .p3 0x02#8, []) ∧
    reads [0b11100010#8, 0x03#8] = some (.xor .plain .p2 0x03#8, []) ∧
    reads [0b11101011#8, 0x04#8] = some (.dad .plain .p3 0x04#8, []) ∧
    reads [0b11110101#8, 0x80#8] = some (.add .auto .p1 0x80#8, []) ∧
    reads [0b11111000#8, 0x7F#8] = some (.cad .plain .p0 0x7F#8, []) := by decide

/-- Format IM: `op5 100`, second byte. -/
theorem test_decode_immediate :
    reads [0b11000100#8, 0x80#8] = some (.ldi 0x80#8, []) ∧
    reads [0b11010100#8, 0x0F#8] = some (.ani 0x0F#8, []) ∧
    reads [0b11011100#8, 0x05#8] = some (.ori 0x05#8, []) ∧
    reads [0b11100100#8, 0xFF#8] = some (.xri 0xFF#8, []) ∧
    reads [0b11101100#8, 0x99#8] = some (.dai 0x99#8, []) ∧
    reads [0b11110100#8, 0x01#8] = some (.adi 0x01#8, []) ∧
    reads [0b11111100#8, 0x01#8] = some (.cai 0x01#8, []) := by decide

theorem test_decode_shift :
    reads [0b00011001#8] = some (.sio, []) ∧ reads [0b00011100#8] = some (.sr, []) ∧
    reads [0b00011101#8] = some (.srl, []) ∧ reads [0b00011110#8] = some (.rr, []) ∧
    reads [0b00011111#8] = some (.rrl, []) := by decide

theorem test_decode_increment_decrement :
    reads [0b10101010#8, 0x00#8] = some (.ild .p2 0x00#8, []) ∧
    reads [0b10111011#8, 0x2F#8] = some (.dld .p3 0x2F#8, []) := by decide

theorem test_decode_branch :
    reads [0b10010000#8, 0xFE#8] = some (.jmp .p0 0xFE#8, []) ∧
    reads [0b10010101#8, 0x04#8] = some (.jp .p1 0x04#8, []) ∧
    reads [0b10011010#8, 0x04#8] = some (.jz .p2 0x04#8, []) ∧
    reads [0b10011111#8, 0x80#8] = some (.jnz .p3 0x80#8, []) := by decide

theorem test_decode_extension_register :
    reads [0b01000000#8] = some (.lde, []) ∧ reads [0b00000001#8] = some (.xae, []) ∧
    reads [0b01010000#8] = some (.ane, []) ∧ reads [0b01011000#8] = some (.ore, []) ∧
    reads [0b01100000#8] = some (.xre, []) ∧ reads [0b01110000#8] = some (.ade, []) ∧
    reads [0b01111000#8] = some (.cae, []) ∧ reads [0b01101000#8] = some (.dae, []) := by decide

theorem test_decode_pointer_register :
    reads [0b00110001#8] = some (.xpal .p1, []) ∧ reads [0b00110110#8] = some (.xpah .p2, []) ∧
    reads [0b00111100#8] = some (.xppc .p0, []) ∧
    reads [0b00111111#8, 0x00#8] = some (.xppc .p3, [0x00#8]) := by decide

theorem test_decode_other :
    reads [0b00000000#8] = some (.halt, []) ∧ reads [0b00001000#8] = some (.nop, []) ∧
    reads [0b00000010#8] = some (.ccl, []) ∧ reads [0b00000011#8] = some (.scl, []) ∧
    reads [0b00000101#8] = some (.ien, []) ∧ reads [0b00000100#8] = some (.dint, []) ∧
    reads [0b00000110#8] = some (.csa, []) ∧ reads [0b00000111#8] = some (.cas, []) ∧
    reads [0b10001111#8, 0x80#8] = some (.dly 0x80#8, []) := by decide

/-- VU1 to VU7: undefined first bytes. -/
theorem test_decode_undefined :
    [0x09#8, 0xCC#8, 0xAC#8, 0x80#8, 0x20#8, 0x3B#8, 0x18#8, 0x1A#8, 0x1B#8].all
      (fun op => (reads [op, 0x00#8]).isNone) = true := by decide

/-- "Of the 256 first-byte values, 121 are defined" (decoding checks of spec/95_test_vectors.md). -/
theorem test_decode_count :
    ((List.range 256).filter fun n => (reads [BitVec.ofNat 8 n, 0x00#8]).isSome).length = 121 := by rfl

/-- Words numbered as spec/opcode_table.json numbers them: the second byte is bits 15 to 8. -/
theorem test_table_word :
    decodeTableWord 16 0x05C1 = some (.ld .plain .p1 0x05#8) ∧ decodeTableWord 8 0x3F = some (.xppc .p3) ∧
    decodeTableWord 8 0xCC = none := by decide

/-! ## Single steps (spec/95_test_vectors.md, section 2) -/

/-- Input levels, with nothing presented and no decimal draw. -/
def pins (sa sb sin : Bool) : Inputs := ⟨sa, sa, sb, sin, 0x00#8, 0x00#8, 0x00#8, 0x00#8, false⟩

/-- The start of every vector: PC = 0x00FF, all pins low, the rest as after reset. -/
def start : State := { State.reset with p0 := 0x00FF#16, script := [.draws (pins false false false)] }

/-- Put bytes in memory. -/
def put (cells : List (Nat × Byte)) (s : State) : State :=
  { s with mem := cells.foldl (fun m c => Memory.write m c.1 c.2) s.mem }

/-- The next state, if an outcome is one. -/
def nextOf : Host.Outcome State Fault Refusal → Option State
  | .next t => some t
  | .fault _ => none
  | .refused _ => none

/-- The state after one step, if there is one. -/
def after (s : State) : Option State := nextOf (step s)

/-- VM8: LD -128(1), E=0xF0. -/
theorem test_ld_vm8 :
    (after (put [(0x0100, 0xC1#8), (0x0101, 0x80#8), (0x02F0, 0x09#8)]
      { start with e := 0xF0#8, p1 := 0x0300#16 })).map (fun t => (t.ac, t.p0)) =
    some (0x09#8, 0x0101#16) := by decide

/-- VM15: LD @1(3). -/
theorem test_ld_vm15 :
    (after (put [(0x0100, 0xC7#8), (0x0101, 0x01#8), (0x3FFF, 0x10#8)]
      { start with p3 := 0x3FFF#16 })).map (fun t => (t.ac, t.p3, t.p0)) =
    some (0x10#8, 0x3000#16, 0x0101#16) := by decide

/-- VM17: ST @-1(2). -/
theorem test_st_vm17 :
    (after (put [(0x0100, 0xCE#8), (0x0101, 0xFF#8)]
      { start with ac := 0x3C#8, p2 := 0x0200#16 })).map (fun t => (t.p2, t.p0, t.byteAt 0x01FF#16)) =
    some (0x01FF#16, 0x0101#16, 0x3C#8) := by decide

/-- VM20: ST -1(0). -/
theorem test_st_vm20 :
    (after (put [(0x0100, 0xC8#8), (0x0101, 0xFF#8)]
      { start with ac := 0x08#8 })).map (fun t => (t.p0, t.byteAt 0x0100#16)) =
    some (0x0101#16, 0x08#8) := by decide

/-- VL1: AND 0(1). -/
theorem test_and_vl1 :
    (after (put [(0x0100, 0xD1#8), (0x0101, 0x00#8), (0x0200, 0x3C#8)]
      { start with ac := 0xF0#8, sr := .ofByte 0xC0#8, p1 := 0x0200#16 })).map (fun t => (t.ac, t.sr, t.p0)) =
    some (0x30#8, .ofByte 0xC0#8, 0x0101#16) := by decide

/-- VL2: OR 0(1). -/
theorem test_or_vl2 :
    (after (put [(0x0100, 0xD9#8), (0x0101, 0x00#8), (0x0200, 0x3C#8)]
      { start with ac := 0xF0#8, p1 := 0x0200#16 })).map (fun t => (t.ac, t.sr, t.p0)) =
    some (0xFC#8, .ofByte 0x00#8, 0x0101#16) := by decide

/-- VL4: XOR 0(1). -/
theorem test_xor_vl4 :
    (after (put [(0x0100, 0xE1#8), (0x0101, 0x00#8), (0x0200, 0xFF#8)]
      { start with ac := 0xFF#8, sr := .ofByte 0x80#8, p1 := 0x0200#16 })).map (fun t => (t.ac, t.sr, t.p0)) =
    some (0x00#8, .ofByte 0x80#8, 0x0101#16) := by decide

/-- VA5: ADD 0(1). -/
theorem test_add_va5 :
    (after (put [(0x0100, 0xF1#8), (0x0101, 0x00#8), (0x0200, 0x80#8)]
      { start with ac := 0x80#8, p1 := 0x0200#16 })).map (fun t => (t.ac, t.sr, t.p0)) =
    some (0x00#8, .ofByte 0xC0#8, 0x0101#16) := by decide

/-- VA14: ADD 0(1). -/
theorem test_add_va14 :
    (after (put [(0x0100, 0xF1#8), (0x0101, 0x00#8), (0x0200, 0x01#8)]
      { start with ac := 0x01#8, sr := .ofByte 0x4F#8, p1 := 0x0200#16 })).map (fun t => (t.ac, t.sr, t.p0)) =
    some (0x02#8, .ofByte 0x0F#8, 0x0101#16) := by decide

/-- VC2: CAD 0(1). -/
theorem test_cad_vc2 :
    (after (put [(0x0100, 0xF9#8), (0x0101, 0x00#8), (0x0200, 0x05#8)]
      { start with ac := 0x03#8, sr := .ofByte 0x80#8, p1 := 0x0200#16 })).map (fun t => (t.ac, t.sr, t.p0)) =
    some (0xFE#8, .ofByte 0x00#8, 0x0101#16) := by decide

/-- VC6: CAD 0(1). -/
theorem test_cad_vc6 :
    (after (put [(0x0100, 0xF9#8), (0x0101, 0x00#8), (0x0200, 0xFF#8)]
      { start with ac := 0x7F#8, sr := .ofByte 0x80#8, p1 := 0x0200#16 })).map (fun t => (t.ac, t.sr, t.p0)) =
    some (0x80#8, .ofByte 0x40#8, 0x0101#16) := by decide

/-- VD3: DAD 0(1). -/
theorem test_dad_vd3 :
    (after (put [(0x0100, 0xE9#8), (0x0101, 0x00#8), (0x0200, 0x01#8)]
      { start with ac := 0x19#8, sr := .ofByte 0x40#8, p1 := 0x0200#16 })).map (fun t => (t.ac, t.sr, t.p0)) =
    some (0x20#8, .ofByte 0x40#8, 0x0101#16) := by decide

/-- VD4: DAD 0(1). -/
theorem test_dad_vd4 :
    (after (put [(0x0100, 0xE9#8), (0x0101, 0x00#8), (0x0200, 0x01#8)]
      { start with ac := 0x99#8, p1 := 0x0200#16 })).map (fun t => (t.ac, t.sr, t.p0)) =
    some (0x00#8, .ofByte 0x80#8, 0x0101#16) := by decide

/-- VI1: LDI 0x80. -/
theorem test_ldi_vi1 :
    (after (put [(0x0100, 0xC4#8), (0x0101, 0x80#8)]
      { start with e := 0x33#8 })).map (fun t => (t.ac, t.sr, t.p0)) =
    some (0x80#8, .ofByte 0x00#8, 0x0101#16) := by decide

/-- VI3: ANI 0x0F. -/
theorem test_ani_vi3 :
    (after (put [(0x0100, 0xD4#8), (0x0101, 0x0F#8)]
      { start with ac := 0xA5#8 })).map (fun t => (t.ac, t.sr, t.p0)) =
    some (0x05#8, .ofByte 0x00#8, 0x0101#16) := by decide

/-- VI4: ORI 0x0F. -/
theorem test_ori_vi4 :
    (after (put [(0x0100, 0xDC#8), (0x0101, 0x0F#8)]
      { start with ac := 0xA0#8 })).map (fun t => (t.ac, t.sr, t.p0)) =
    some (0xAF#8, .ofByte 0x00#8, 0x0101#16) := by decide

/-- VI5: XRI 0xFF. -/
theorem test_xri_vi5 :
    (after (put [(0x0100, 0xE4#8), (0x0101, 0xFF#8)]
      { start with ac := 0xA5#8 })).map (fun t => (t.ac, t.sr, t.p0)) =
    some (0x5A#8, .ofByte 0x00#8, 0x0101#16) := by decide

/-- VI7: ADI 0xFF. -/
theorem test_adi_vi7 :
    (after (put [(0x0100, 0xF4#8), (0x0101, 0xFF#8)]
      { start with ac := 0x01#8, sr := .ofByte 0x80#8 })).map (fun t => (t.ac, t.sr, t.p0)) =
    some (0x01#8, .ofByte 0x80#8, 0x0101#16) := by decide

/-- VI8: ADI 0x80. -/
theorem test_adi_vi8 :
    (after (put [(0x0100, 0xF4#8), (0x0101, 0x80#8)]
      { start with ac := 0x80#8, e := 0x01#8 })).map (fun t => (t.ac, t.sr, t.p0)) =
    some (0x00#8, .ofByte 0xC0#8, 0x0101#16) := by decide

/-- VI9: CAI 1. -/
theorem test_cai_vi9 :
    (after (put [(0x0100, 0xFC#8), (0x0101, 0x01#8)]
      { start with sr := .ofByte 0x80#8 })).map (fun t => (t.ac, t.sr, t.p0)) =
    some (0xFF#8, .ofByte 0x00#8, 0x0101#16) := by decide

/-- VI11: CAI 0x80. -/
theorem test_cai_vi11 :
    (after (put [(0x0100, 0xFC#8), (0x0101, 0x80#8)]
      { start with ac := 0x7F#8, sr := .ofByte 0x80#8 })).map (fun t => (t.ac, t.sr, t.p0)) =
    some (0xFF#8, .ofByte 0x40#8, 0x0101#16) := by decide

/-- VI12: DAI 0x01. -/
theorem test_dai_vi12 :
    (after (put [(0x0100, 0xEC#8), (0x0101, 0x01#8)]
      { start with ac := 0x99#8, sr := .ofByte 0x40#8 })).map (fun t => (t.ac, t.sr, t.p0)) =
    some (0x00#8, .ofByte 0xC0#8, 0x0101#16) := by decide

/-- VI13: DAI 0x99. -/
theorem test_dai_vi13 :
    (after (put [(0x0100, 0xEC#8), (0x0101, 0x99#8)]
      { start with ac := 0x01#8, sr := .ofByte 0x80#8 })).map (fun t => (t.ac, t.sr, t.p0)) =
    some (0x01#8, .ofByte 0x80#8, 0x0101#16) := by decide

/-- VS1: SIO. -/
theorem test_sio_vs1 :
    (after (put [(0x0100, 0x19#8)]
      { start with ac := 0x77#8, e := 0xA5#8, script := [.draws (pins false false true)] })).map (fun t => (t.ac, t.e, t.sout, t.events.getLast?)) =
    some (0x77#8, 0xD2#8, true, some (.serialOut true)) := by decide

/-- VS3: SIO. -/
theorem test_sio_vs3 :
    (after (put [(0x0100, 0x19#8)]
      { start with sr := .ofByte 0x80#8, script := [.draws (pins false false true)] })).map (fun t => (t.e, t.sr, t.sout, t.events.getLast?)) =
    some (0x80#8, .ofByte 0x80#8, false, some (.serialOut false)) := by decide

/-- VS4: SR. -/
theorem test_sr_vs4 :
    (after (put [(0x0100, 0x1C#8)]
      { start with ac := 0x81#8, sr := .ofByte 0x80#8 })).map (fun t => (t.ac, t.sr, t.p0)) =
    some (0x40#8, .ofByte 0x80#8, 0x0100#16) := by decide

/-- VS6: SRL. -/
theorem test_srl_vs6 :
    (after (put [(0x0100, 0x1D#8)]
      { start with ac := 0x02#8, sr := .ofByte 0x80#8 })).map (fun t => (t.ac, t.sr, t.p0)) =
    some (0x81#8, .ofByte 0x80#8, 0x0100#16) := by decide

/-- VS7: SRL. -/
theorem test_srl_vs7 :
    (after (put [(0x0100, 0x1D#8)]
      { start with ac := 0x81#8 })).map (fun t => (t.ac, t.sr, t.p0)) =
    some (0x40#8, .ofByte 0x00#8, 0x0100#16) := by decide

/-- VS8: RR. -/
theorem test_rr_vs8 :
    (after (put [(0x0100, 0x1E#8)]
      { start with ac := 0x01#8 })).map (fun t => (t.ac, t.sr, t.p0)) =
    some (0x80#8, .ofByte 0x00#8, 0x0100#16) := by decide

/-- VS9: RR. -/
theorem test_rr_vs9 :
    (after (put [(0x0100, 0x1E#8)]
      { start with ac := 0x96#8, sr := .ofByte 0x80#8 })).map (fun t => (t.ac, t.sr, t.p0)) =
    some (0x4B#8, .ofByte 0x80#8, 0x0100#16) := by decide

/-- VS10: RRL. -/
theorem test_rrl_vs10 :
    (after (put [(0x0100, 0x1F#8)]
      { start with ac := 0x01#8 })).map (fun t => (t.ac, t.sr, t.p0)) =
    some (0x00#8, .ofByte 0x80#8, 0x0100#16) := by decide

/-- VS12: RRL. -/
theorem test_rrl_vs12 :
    (after (put [(0x0100, 0x1F#8)]
      { start with ac := 0xFF#8, sr := .ofByte 0xC8#8 })).map (fun t => (t.ac, t.sr, t.p0)) =
    some (0xFF#8, .ofByte 0xC8#8, 0x0100#16) := by decide

/-- VN2: ILD 0(2). -/
theorem test_ild_vn2 :
    (after (put [(0x0100, 0xAA#8), (0x0101, 0x00#8), (0x0120, 0xFF#8)]
      { start with p2 := 0x0120#16 })).map (fun t => (t.ac, t.sr, t.p0, t.byteAt 0x0120#16)) =
    some (0x00#8, .ofByte 0x00#8, 0x0101#16, 0x00#8) := by decide

/-- VN7: ILD -128(1), E=3. -/
theorem test_ild_vn7 :
    (after (put [(0x0100, 0xA9#8), (0x0101, 0x80#8), (0x0503, 0x0F#8)]
      { start with e := 0x03#8, p1 := 0x0500#16 })).map (fun t => (t.ac, t.sr, t.p0, t.byteAt 0x0503#16)) =
    some (0x10#8, .ofByte 0x00#8, 0x0101#16, 0x10#8) := by decide

/-- VN5: DLD 0(2). -/
theorem test_dld_vn5 :
    (after (put [(0x0100, 0xBA#8), (0x0101, 0x00#8), (0x0120, 0x00#8)]
      { start with sr := .ofByte 0x80#8, p2 := 0x0120#16 })).map (fun t => (t.ac, t.sr, t.p0, t.byteAt 0x0120#16)) =
    some (0xFF#8, .ofByte 0x80#8, 0x0101#16, 0xFF#8) := by decide

/-- VN6: DLD 0x2F(0). -/
theorem test_dld_vn6 :
    (after (put [(0x0100, 0xB8#8), (0x0101, 0x2F#8), (0x0130, 0x10#8)]
      start)).map (fun t => (t.ac, t.sr, t.p0, t.byteAt 0x0130#16)) =
    some (0x0F#8, .ofByte 0x00#8, 0x0101#16, 0x0F#8) := by decide

/-- VB2: JMP -2(0)  (JMP $). -/
theorem test_jmp_vb2 :
    (after (put [(0x0100, 0x90#8), (0x0101, 0xFE#8)]
      start)).map (fun t => t.p0) =
    some 0x00FF#16 := by decide

/-- VB5: JMP 5(1). -/
theorem test_jmp_vb5 :
    (after (put [(0x0100, 0x91#8), (0x0101, 0x05#8)]
      { start with p1 := 0x1FFE#16 })).map (fun t => t.p0) =
    some 0x1003#16 := by decide

/-- VB6: JP 4(0), AC=0x00. -/
theorem test_jp_vb6 :
    (after (put [(0x0100, 0x94#8), (0x0101, 0x04#8)]
      start)).map (fun t => t.p0) =
    some 0x0105#16 := by decide

/-- VB8: JP 4(0), AC=0x80. -/
theorem test_jp_vb8 :
    (after (put [(0x0100, 0x94#8), (0x0101, 0x04#8)]
      { start with ac := 0x80#8 })).map (fun t => t.p0) =
    some 0x0101#16 := by decide

/-- VB14: JZ 0(2), AC=0. -/
theorem test_jz_vb14 :
    (after (put [(0x0100, 0x9A#8), (0x0101, 0x00#8)]
      { start with p2 := 0x4321#16 })).map (fun t => t.p0) =
    some 0x4321#16 := by decide

/-- VB12: JNZ -13(0), AC=7. -/
theorem test_jnz_vb12 :
    (after (put [(0x0100, 0x9C#8), (0x0101, 0xF3#8)]
      { start with ac := 0x07#8 })).map (fun t => t.p0) =
    some 0x00F4#16 := by decide

/-- VB13: JNZ -13(0), AC=0. -/
theorem test_jnz_vb13 :
    (after (put [(0x0100, 0x9C#8), (0x0101, 0xF3#8)]
      start)).map (fun t => t.p0) =
    some 0x0101#16 := by decide

/-- VE1: LDE. -/
theorem test_lde_ve1 :
    (after (put [(0x0100, 0x40#8)]
      { start with ac := 0x11#8, e := 0xEE#8 })).map (fun t => (t.ac, t.sr, t.p0)) =
    some (0xEE#8, .ofByte 0x00#8, 0x0100#16) := by decide

/-- VE2: XAE. -/
theorem test_xae_ve2 :
    (after (put [(0x0100, 0x01#8)]
      { start with ac := 0x11#8, e := 0xEE#8 })).map (fun t => (t.ac, t.e, t.sr, t.p0)) =
    some (0xEE#8, 0x11#8, .ofByte 0x00#8, 0x0100#16) := by decide

/-- VE3: ANE. -/
theorem test_ane_ve3 :
    (after (put [(0x0100, 0x50#8)]
      { start with ac := 0xF0#8, e := 0x3C#8, sr := .ofByte 0xC0#8 })).map (fun t => (t.ac, t.sr, t.p0)) =
    some (0x30#8, .ofByte 0xC0#8, 0x0100#16) := by decide

/-- VE4: ORE. -/
theorem test_ore_ve4 :
    (after (put [(0x0100, 0x58#8)]
      { start with ac := 0xF0#8, e := 0x3C#8 })).map (fun t => (t.ac, t.sr, t.p0)) =
    some (0xFC#8, .ofByte 0x00#8, 0x0100#16) := by decide

/-- VE5: XRE. -/
theorem test_xre_ve5 :
    (after (put [(0x0100, 0x60#8)]
      { start with ac := 0xF0#8, e := 0x3C#8 })).map (fun t => (t.ac, t.sr, t.p0)) =
    some (0xCC#8, .ofByte 0x00#8, 0x0100#16) := by decide

/-- VE7: ADE. -/
theorem test_ade_ve7 :
    (after (put [(0x0100, 0x70#8)]
      { start with ac := 0x80#8, e := 0x80#8, sr := .ofByte 0x80#8 })).map (fun t => (t.ac, t.sr, t.p0)) =
    some (0x01#8, .ofByte 0xC0#8, 0x0100#16) := by decide

/-- VE8: CAE. -/
theorem test_cae_ve8 :
    (after (put [(0x0100, 0x78#8)]
      { start with ac := 0x20#8, e := 0x01#8, sr := .ofByte 0x80#8 })).map (fun t => (t.ac, t.sr, t.p0)) =
    some (0x1F#8, .ofByte 0x80#8, 0x0100#16) := by decide

/-- VE9: CAE. -/
theorem test_cae_ve9 :
    (after (put [(0x0100, 0x78#8)]
      { start with e := 0x01#8, sr := .ofByte 0x80#8 })).map (fun t => (t.ac, t.sr, t.p0)) =
    some (0xFF#8, .ofByte 0x00#8, 0x0100#16) := by decide

/-- VE10: DAE. -/
theorem test_dae_ve10 :
    (after (put [(0x0100, 0x68#8)]
      { start with ac := 0x58#8, e := 0x67#8 })).map (fun t => (t.ac, t.sr, t.p0)) =
    some (0x25#8, .ofByte 0x80#8, 0x0100#16) := by decide

/-- VE11: DAE. -/
theorem test_dae_ve11 :
    (after (put [(0x0100, 0x68#8)]
      { start with sr := .ofByte 0xC0#8 })).map (fun t => (t.ac, t.sr, t.p0)) =
    some (0x01#8, .ofByte 0x40#8, 0x0100#16) := by decide

/-- VP1: XPAL 1. -/
theorem test_xpal_vp1 :
    (after (put [(0x0100, 0x31#8)]
      { start with ac := 0x34#8, p1 := 0xABCD#16 })).map (fun t => (t.ac, t.p1, t.p0)) =
    some (0xCD#8, 0xAB34#16, 0x0100#16) := by decide

/-- VP7: XPAL 0. -/
theorem test_xpal_vp7 :
    (after (put [(0x0100, 0x30#8)]
      { start with ac := 0x7F#8 })).map (fun t => (t.ac, t.p0)) =
    some (0x00#8, 0x017F#16) := by decide

/-- VP2: XPAH 1. -/
theorem test_xpah_vp2 :
    (after (put [(0x0100, 0x35#8)]
      { start with ac := 0x12#8, p1 := 0xABCD#16 })).map (fun t => (t.ac, t.p1, t.p0)) =
    some (0xAB#8, 0x12CD#16, 0x0100#16) := by decide

/-- VP8: XPAH 0. -/
theorem test_xpah_vp8 :
    (after (put [(0x0100, 0x34#8)]
      { start with ac := 0x20#8 })).map (fun t => (t.ac, t.p0)) =
    some (0x01#8, 0x2000#16) := by decide

/-- VP4: XPPC 3. -/
theorem test_xppc_vp4 :
    (after (put [(0x0100, 0x3F#8)]
      { start with p3 := 0x003F#16 })).map (fun t => (t.p3, t.p0)) =
    some (0x0100#16, 0x003F#16) := by decide

/-- VP6: XPPC 0. -/
theorem test_xppc_vp6 :
    (after (put [(0x0100, 0x3C#8)]
      start)).map (fun t => t.p0) =
    some 0x0100#16 := by decide

/-- VO1: HALT. -/
theorem test_halt_vo1 :
    (after (put [(0x0100, 0x00#8)]
      { start with ac := 0x12#8, sr := .ofByte 0x88#8 })).map (fun t => (t.p0, t.events.getLast?)) =
    some (0x0100#16, some (.haltPulse)) := by decide

/-- VO2: NOP. -/
theorem test_nop_vo2 :
    (after (put [(0x0100, 0x08#8)]
      { start with ac := 0x12#8, sr := .ofByte 0x88#8 })).map (fun t => t.p0) =
    some 0x0100#16 := by decide

/-- VO3: CCL. -/
theorem test_ccl_vo3 :
    (after (put [(0x0100, 0x02#8)]
      { start with sr := .ofByte 0xC8#8 })).map (fun t => (t.sr, t.p0)) =
    some (.ofByte 0x48#8, 0x0100#16) := by decide

/-- VO5: SCL. -/
theorem test_scl_vo5 :
    (after (put [(0x0100, 0x03#8)]
      start)).map (fun t => (t.sr, t.p0)) =
    some (.ofByte 0x80#8, 0x0100#16) := by decide

/-- VO7: IEN. -/
theorem test_ien_vo7 :
    (after (put [(0x0100, 0x05#8)]
      start)).map (fun t => (t.sr, t.p0)) =
    some (.ofByte 0x08#8, 0x0100#16) := by decide

/-- VO8: DINT. -/
theorem test_dint_vo8 :
    (after (put [(0x0100, 0x04#8)]
      { start with sr := .ofByte 0x88#8 })).map (fun t => (t.sr, t.p0)) =
    some (.ofByte 0x80#8, 0x0100#16) := by decide

/-- VO9: CSA. -/
theorem test_csa_vo9 :
    (after (put [(0x0100, 0x06#8)]
      { start with sr := .ofByte 0x81#8, script := [.draws (pins true false false)] })).map (fun t => (t.ac, t.p0)) =
    some (0x91#8, 0x0100#16) := by decide

/-- VO11: CSA. -/
theorem test_csa_vo11 :
    (after (put [(0x0100, 0x06#8)]
      { start with sr := .ofByte 0xC7#8, script := [.draws (pins true true false)] })).map (fun t => (t.ac, t.p0)) =
    some (0xF7#8, 0x0100#16) := by decide

/-- VO12: CAS. -/
theorem test_cas_vo12 :
    (after (put [(0x0100, 0x07#8)]
      { start with ac := 0xB5#8 })).map (fun t => (t.sr, t.p0, t.events.getLast?)) =
    some (.ofByte 0x85#8, 0x0100#16, some (.flags true false true)) := by decide

/-- VO13: CAS. -/
theorem test_cas_vo13 :
    (after (put [(0x0100, 0x07#8)]
      { start with ac := 0xFF#8 })).map (fun t => (t.sr, t.p0, t.events.getLast?)) =
    some (.ofByte 0xCF#8, 0x0100#16, some (.flags true true true)) := by decide

/-- VO15: DLY 2. -/
theorem test_dly_vo15 :
    (after (put [(0x0100, 0x8F#8), (0x0101, 0x02#8)]
      { start with ac := 0x10#8 })).map (fun t => (t.ac, t.p0, t.events.getLast?)) =
    some (0xFF#8, 0x0101#16, some (.delayStart 1073)) := by decide

/-- VO18: DLY 128. -/
theorem test_dly_vo18 :
    (after (put [(0x0100, 0x8F#8), (0x0101, 0x80#8)]
      { start with e := 0x01#8 })).map (fun t => (t.ac, t.p0, t.events.getLast?)) =
    some (0xFF#8, 0x0101#16, some (.delayStart 65805)) := by decide

/-- VX1: NOP at 0x0100, IE=1, SA=1. -/
theorem test_nop_vx1 :
    (after (put [(0x0050, 0x08#8), (0x0100, 0x08#8)]
      { start with sr := .ofByte 0x08#8, p3 := 0x004F#16, script := [.draws (pins true false false)] })).map (fun t => (t.sr, t.p3, t.p0)) =
    some (.ofByte 0x00#8, 0x00FF#16, 0x0050#16) := by decide

/-- VX4: DINT at 0x0100, IE=1, SA=1. -/
theorem test_dint_vx4 :
    (after (put [(0x0050, 0xC4#8), (0x0051, 0x07#8), (0x0100, 0x04#8)]
      { start with sr := .ofByte 0x88#8, p3 := 0x004F#16, script := [.draws (pins true false false)] })).map (fun t => (t.ac, t.sr, t.p3, t.p0)) =
    some (0x07#8, .ofByte 0x80#8, 0x00FF#16, 0x0051#16) := by decide

/-- VJ1: `JMP -128(0)` with E = 4 goes to one of the two targets of R117. -/
theorem test_jmp_vj1 :
    (after (put [(0x0100, 0x90#8), (0x0101, 0x80#8)] { start with e := 0x04#8 })).map (fun t => t.p0) =
    some (match Config.jumpDisp80 with
      | .usesE => 0x0105#16
      | .literalMinus128 => 0x0081#16) := by
  have h : (after (put [(0x0100, 0x90#8), (0x0101, 0x80#8)] { start with e := 0x04#8 })).map (fun t => t.p0) =
      some (add12 0x0101#16 (jumpDisp 0x80#8 { start with e := 0x04#8 })) := rfl
  rw [h]
  unfold jumpDisp
  cases Config.jumpDisp80 <;> decide

/-- VJ2: `JZ -128(1)` not taken. -/
theorem test_jz_vj2 :
    (after (put [(0x0100, 0x99#8), (0x0101, 0x80#8)]
      { start with ac := 0x01#8, e := 0x04#8, p1 := 0x0200#16 })).map (fun t => t.p0) = some 0x0101#16 := by decide

/-- VU2: a step that fetches the undefined byte CC is refused by name. -/
theorem test_step_undefined : step (put [(0x0100, 0xCC#8)] start) = .refused (.undefinedOpcode 0xCC#8) := by rfl

/-- VZ1, VZ2: from reset with memory all 00, HALT is fetched from 0x0001. -/
theorem test_reset_first_step :
    (after State.reset).map (fun t => (t.p0, t.events)) = some (0x0001#16, [.flags false false false, .haltPulse]) := by
  decide

/-- A placed word is what the next step runs: LDI 0x5A in a machine that is stopped with a reset waiting. -/
theorem test_with_fetch_word :
    (after (({ start with running := false, script := [.nrst] } : State).withFetchWord 16 0x5AC4)).map (fun t => t.ac) =
    some 0x5A#8 := by decide

/-- R51: where the page bits are not decoded, page 5 shows the byte stored in page 0. -/
theorem test_pages_repeat :
    (put [(0x0200, 0x5A#8)] { start with pageMask := 0b0000#4 }).byteAt 0x5200#16 = 0x5A#8 := by decide

/-- R51, R54: without page bits a store through 0x7FFF with displacement 1 lands at offset 0 of the one image. -/
theorem test_pages_repeat_store :
    (nextOf (exec (.st .plain .p1 0x01#8) { start with ac := 0x5A#8, p1 := 0x7FFF#16, pageMask := 0b0000#4 })).map
      (fun t => (t.mem, t.byteAt 0x7000#16, t.byteAt 0x2000#16)) = some ([(0x0000, 0x5A#8)], 0x5A#8, 0x5A#8) := by decide

/-- The same placed word where the map has no memory and the page bits are not decoded. -/
theorem test_with_fetch_word_no_pages :
    (after (({ start with p0 := 0x4FFF#16, memmap := [⟨0x0000, 0x1000, .empty⟩], pageMask := 0b0000#4 } :
      State).withFetchWord 16 0x5AC4)).map (fun t => (t.ac, t.p0)) = some (0x5A#8, 0x4001#16) := by decide

/-! ## Hypotheses met -/

/-- A map with every kind of address; what is not in it is RAM. -/
def allKinds : List Region := [⟨0x1000, 0x100, .rom⟩, ⟨0x2000, 0x10, .device⟩, ⟨0x3000, 0x1000, .empty⟩]

/-- A state with every kind of address and a byte in ROM. -/
def mixed : State := { put [(0x1000, 0x77#8)] start with memmap := allKinds }

theorem witness_DecodeOfEncode :
    (Instr.ld .auto .p3 0x80#8).wellFormed = true ∧ (Instr.dly 0xFF#8).wellFormed = true := by decide

theorem witness_EncodeOfDecode :
    decode [0xCE#8, 0xFF#8, 0x08#8] = .ok (.st .auto .p2 0xFF#8, [0x08#8]) := by rfl

theorem witness_UndefinedOpcodesRefused :
    InstructionNext (put [(0x0100, 0xCC#8)] start) ∧
    (fetchByte (put [(0x0100, 0xCC#8)] start).inputs.fetchByte1 (interruptCheck (put [(0x0100, 0xCC#8)] start))).1 =
      0xCC#8 ∧
    UndefinedFirstByte 0xCC#8 :=
  ⟨rfl, rfl, (0xCC, 0xCC), by decide, by decide, by decide⟩

theorem witness_UndefinedFirstByte_bounds : UndefinedFirstByte 0x09#8 ∧ UndefinedFirstByte 0x18#8 :=
  ⟨⟨(0x09, 0x18), by decide, by decide, by decide⟩, ⟨(0x09, 0x18), by decide, by decide, by decide⟩⟩

/-- LDI 0x07 waits at 0x0100. -/
def atLdi : State := put [(0x0100, 0xC4#8), (0x0101, 0x07#8)] start

theorem witness_StepRunsDecodedInstruction :
    InstructionNext atLdi ∧ decode (fetchBytes (interruptCheck atLdi)).1 = .ok (.ldi 0x07#8, []) := ⟨rfl, rfl⟩

/-- A one-byte instruction in ROM, at the first offset of a page, fetched from its last. -/
theorem witness_FetchReadsAfterIncrement_one :
    IsMemory { mixed with p0 := 0x1FFF#16 } (inc12 0x1FFF#16) ∧
    (({ mixed with p0 := 0x1FFF#16 } : State).byteAt (inc12 0x1FFF#16)).getLsbD 7 = false :=
  ⟨.inr (by decide), by decide⟩

theorem witness_FetchReadsAfterIncrement_two :
    IsMemory atLdi (inc12 atLdi.p0) ∧ (atLdi.byteAt (inc12 atLdi.p0)).getLsbD 7 = true ∧
    IsMemory atLdi (inc12 (inc12 atLdi.p0)) := ⟨.inl (by decide), by decide, .inl (by decide)⟩

/-- The reset state, and one whose map has ROM at 0x0001 and no page bits. -/
theorem witness_FirstFetchAtOne :
    IsMemory State.reset 0x0001#16 ∧
    IsMemory { State.reset with memmap := [⟨0x0000, 0x800, .rom⟩], pageMask := 0b0000#4 } 0x0001#16 :=
  ⟨.inl (by decide), .inr (by decide)⟩

theorem witness_ExecAlwaysCompletes :
    (Instr.xppc .p3).wellFormed = true ∧ (Instr.st .auto .p0 0x01#8).wellFormed = false := by decide

/-- A negative displacement, zero, and E taken as a negative displacement. -/
theorem witness_AutoIndexedAddress :
    (Ptr.p1 ≠ .p0) ∧ (-1 : Int) = (if 0xFF#8 = 0x80#8 then start.e.toInt else (0xFF#8 : Byte).toInt) ∧
    (0 : Int) = (if 0x00#8 = 0x80#8 then start.e.toInt else (0x00#8 : Byte).toInt) ∧
    (-128 : Int) = (if 0x80#8 = 0x80#8 then ({ start with e := 0x80#8 } : State).e.toInt else (0x80#8 : Byte).toInt) := by
  decide

theorem witness_ReadByKind :
    IsMemory mixed 0x0FFF#16 ∧ IsMemory mixed 0x10FF#16 ∧ mixed.kindOf 0x2000#16 = .device ∧
    mixed.kindOf 0x3FFF#16 = .empty := ⟨.inl (by decide), .inr (by decide), by decide, by decide⟩

theorem witness_WriteByKind :
    Memory.wf mixed.mem = true ∧ mixed.kindOf 0x1100#16 = .ram ∧
    (mixed.kindOf 0x1000#16 = .rom ∨ mixed.kindOf 0x1000#16 = .empty) ∧
    (mixed.kindOf 0x3000#16 = .rom ∨ mixed.kindOf 0x3000#16 = .empty) ∧ mixed.kindOf 0x200F#16 = .device := by decide

/-- No page bits, first and last page; and all of them. -/
theorem witness_PageBitsByPlatform :
    (({ start with pageMask := 0b0000#4 } : State).pageMask = 0b0000#4 ∧ offsetOf 0xF123#16 = offsetOf 0x0123#16 ∧
      Memory.wf ({ start with pageMask := 0b0000#4 } : State).mem = true ∧
      ({ start with pageMask := 0b0000#4 } : State).kindOf 0xFFFF#16 = .ram) ∧
    (start.pageMask = 0b1111#4 ∧ Memory.wf start.mem = true ∧ start.kindOf 0xFFFF#16 = .ram) := by decide

/-- A step that stores into ROM: ST 0(1). -/
theorem witness_NonRamNeverChanges :
    ((after (put [(0x0100, 0xC9#8), (0x0101, 0x00#8)] { mixed with p1 := 0x1000#16 })).isSome = true) ∧
    mixed.kindOf 0x1000#16 ≠ .ram := by decide

/-- ST 1(0) with the PC at 0x0101 stores at 0x0102, the next instruction's first byte. -/
theorem witness_StoreSeenByNextFetch :
    Memory.wf ({ start with ac := 0x08#8, p0 := 0x0101#16 } : State).mem = true ∧
    eaMem .plain .p0 0x01#8 { start with ac := 0x08#8, p0 := 0x0101#16 } =
      some (0x0102#16, { start with ac := 0x08#8, p0 := 0x0101#16 }) ∧
    ({ start with ac := 0x08#8, p0 := 0x0101#16 } : State).kindOf 0x0102#16 = .ram ∧
    exec (.st .plain .p0 0x01#8) { start with ac := 0x08#8, p0 := 0x0101#16 } =
      .next (put [(0x0102, 0x08#8)] { start with ac := 0x08#8, p0 := 0x0101#16 }) ∧
    inc12 (put [(0x0102, 0x08#8)] { start with ac := 0x08#8, p0 := 0x0101#16 }).p0 = 0x0102#16 :=
  ⟨rfl, rfl, rfl, rfl, by decide⟩

theorem witness_LoadAndLogicResults :
    MemFields.wellFormed .plain .p0 = true ∧ MemFields.wellFormed .auto .p3 = true := by decide

theorem witness_StoreResult :
    MemFields.wellFormed .plain .p0 = true ∧ MemFields.wellFormed .auto .p1 = true := by decide

theorem witness_StoringFrame_st :
    Memory.wf start.mem = true ∧
    eaMem .auto .p1 0x01#8 { start with p1 := 0x0300#16 } = some (0x0300#16, { start with p1 := 0x0301#16 }) ∧
    exec (.st .auto .p1 0x01#8) { start with p1 := 0x0300#16 } = .next { start with p1 := 0x0301#16 } ∧
    start.kindOf 0x0300#16 = .ram ∧ start.place 0x1300#16 ≠ start.place 0x0300#16 ∧
    ({ start with pageMask := 0b0000#4 } : State).place 0x1300#16 =
      ({ start with pageMask := 0b0000#4 } : State).place 0x0300#16 :=
  ⟨rfl, rfl, rfl, by decide, by decide, by decide⟩

theorem witness_StoringFrame_ild_dld :
    (exec (.ild .p2 0x00#8) { start with p2 := 0x0120#16 } =
      .next (put [(0x0120, 0x01#8)] { start with ac := 0x01#8, p2 := 0x0120#16 })) ∧
    (exec (.dld .p2 0x00#8) { start with p2 := 0x0120#16 } =
      .next (put [(0x0120, 0xFF#8)] { start with ac := 0xFF#8, p2 := 0x0120#16 })) ∧
    start.kindOf (eaPlain .p2 0x00#8 { start with p2 := 0x0120#16 }) = .ram := ⟨rfl, rfl, by decide⟩

/-- A pointer at the first offset of a page: the push wraps to its last. -/
theorem witness_PushThenPop :
    (Ptr.p2 ≠ .p0) ∧ Memory.wf start.mem = true ∧
    ({ start with p2 := 0x5000#16 } : State).kindOf (add12 0x5000#16 (-1)) = .ram := by decide

theorem witness_BinaryAdds :
    MemFields.wellFormed .plain .p0 = true ∧ MemFields.wellFormed .auto .p2 = true := by decide

theorem witness_ComplementAdds :
    MemFields.wellFormed .plain .p1 = true ∧ MemFields.wellFormed .auto .p1 = true := by decide

theorem witness_ComplementAddSubtracts : ({ start with sr := .ofByte 0x80#8 } : State).sr.cyl = true := by decide

theorem witness_DecimalAdds :
    eaMem .plain .p1 0x00#8 { start with ac := 0x99#8 } = some (0x0000#16, { start with ac := 0x99#8 }) ∧
    isBcd 0x99#8 = true ∧ isBcd (dataRead 0x0000#16 { start with ac := 0x99#8 }).1 = true ∧
    isBcd ({ start with ac := 0x99#8, e := 0x67#8 } : State).e = true := ⟨rfl, by decide, by decide, by decide⟩

theorem witness_DecimalAddsOfOtherDigits :
    eaMem .plain .p1 0x00#8 { start with ac := 0x0A#8 } = some (0x0000#16, { start with ac := 0x0A#8 }) ∧
    (isBcd 0x0A#8 && isBcd (dataRead 0x0000#16 { start with ac := 0x0A#8 }).1) = false ∧
    (isBcd 0x99#8 && isBcd 0xA0#8) = false := ⟨rfl, by decide, by decide⟩

theorem witness_LinkShiftAndRotates : ({ start with sr := .ofByte 0x80#8 } : State).sr.cyl = true := by decide

theorem witness_Branches : (0x7F#8 : Byte) ≠ 0x80#8 ∧ (0x81#8 : Byte) ≠ 0x80#8 := by decide

/-- The call at 0x0100 through P3 and the return from 0x0050. -/
theorem witness_PointerPcExchange :
    (Ptr.p3 ≠ .p0) ∧
    ({ start with p0 := 0x0050#16, p3 := 0x0100#16 } : State).ptr .p3 = 0x0100#16 ∧
    exec (.xppc .p3) { start with p0 := 0x0050#16, p3 := 0x0100#16 } =
      .next { start with p0 := 0x0100#16, p3 := 0x0050#16 } := ⟨by decide, rfl, rfl⟩

theorem witness_InterruptEnableBit : start.ienPending = false := by decide

theorem witness_AcAndEOnlyByListed :
    exec (.jmp .p1 0x04#8) start = .next { start with p0 := 0x0004#16 } ∧
    mayWriteAc (.jmp .p1 0x04#8) = false ∧ mayWriteE (.jmp .p1 0x04#8) = false := ⟨rfl, rfl, rfl⟩

theorem witness_FlagEffectTable :
    exec (.ldi 0x01#8) start = .next { start with ac := 0x01#8 } ∧ mayWriteCyl (.ldi 0x01#8) = false ∧
    mayWriteOv (.ldi 0x01#8) = false ∧ mayWriteIe (.ldi 0x01#8) = false ∧
    mayWriteFlagOutputs (.ldi 0x01#8) = false := ⟨rfl, rfl, rfl, rfl, rfl⟩

theorem witness_PointersOnlyByListed :
    exec (.ldi 0x01#8) start = .next { start with ac := 0x01#8 } ∧ (Ptr.p3 ≠ .p0) ∧
    mayWritePointer .p3 (.ldi 0x01#8) = false ∧ mayWritePc (.ldi 0x01#8) = false := ⟨rfl, by decide, rfl, rfl⟩

theorem witness_MemoryOnlyByStores :
    exec (.ldi 0x01#8) start = .next { start with ac := 0x01#8 } ∧ mayWriteMemory (.ldi 0x01#8) = false := ⟨rfl, rfl⟩

theorem witness_OtherStateOnlyByListed :
    exec .nop start = .next start ∧ (Instr.nop ≠ .sio) ∧ (Instr.nop ≠ .ien) ∧ (Instr.nop ≠ .cas) :=
  ⟨rfl, by decide, by decide, by decide⟩

theorem witness_EventsOnlyAppended :
    step { start with script := [.cont false] } = .next { start with script := [], running := false } := by rfl

/-- XPPC 2 from page 0 to page 5, and the three ways the hypothesis on a request is met. -/
theorem witness_PageChangesOnlyBy :
    (start.running = true ∧ start.sr.ie = false ∧ start.inputs.senseAAtCheck = false) ∧
    ((after (put [(0x0100, 0x3E#8)] { start with p2 := 0x5FFF#16 })).map fun t => decide (pageOf t.p0 ≠ pageOf start.p0)) =
      some true := by decide

/-- A request with interrupts enabled; the pending IEN off and on. -/
def requested : State := { start with sr := .ofByte 0x08#8, p3 := 0x004F#16, script := [.draws (pins true false false)] }

theorem witness_InterruptEntry :
    (requested.sr.ie = true ∧ requested.inputs.senseAAtCheck = true ∧ requested.ienPending = false) ∧
    (start.sr.ie = false) ∧
    (({ requested with script := [.draws (pins false false false)] } : State).inputs.senseAAtCheck = false) ∧
    (({ requested with ienPending := true } : State).ienPending = true) := by decide

theorem witness_InterruptedStepRunsHandler :
    InstructionNext (put [(0x0050, 0x08#8)] requested) ∧ interruptTaken (put [(0x0050, 0x08#8)] requested) = true ∧
    IsMemory (put [(0x0050, 0x08#8)] requested) (inc12 0x004F#16) ∧
    decode [(put [(0x0050, 0x08#8)] requested).byteAt (inc12 0x004F#16)] = .ok (.nop, []) :=
  ⟨rfl, rfl, .inl (by decide), rfl⟩

/-- The handler of VX4, `LDI 7`, with its second byte at the first offset of the page. -/
def wrapping : State := put [(0x0FFF, 0xC4#8), (0x0000, 0x07#8)] { requested with p3 := 0x0FFE#16 }

theorem witness_InterruptedStepRunsHandler_two :
    InstructionNext wrapping ∧ interruptTaken wrapping = true ∧ IsMemory wrapping (inc12 0x0FFE#16) ∧
    IsMemory wrapping (inc12 (inc12 0x0FFE#16)) ∧
    decode [wrapping.byteAt (inc12 0x0FFE#16), wrapping.byteAt (inc12 (inc12 0x0FFE#16))] = .ok (.ldi 0x07#8, []) :=
  ⟨rfl, rfl, .inl (by decide), .inl (by decide), rfl⟩

theorem witness_InterruptReturn :
    interruptTaken requested = true ∧
    ({ start with p0 := 0x0052#16, p3 := 0x00FF#16 } : State).p3 = (interruptCheck requested).p3 := by decide

theorem witness_NrstResets :
    ({ start with running := false, script := [.nrst, .cont true] } : State).script = .nrst :: [.cont true] := by decide

/-- Interrupts disabled with SENSE A high, and enabled with SENSE A low; an empty script; CONT. -/
theorem witness_StoppedByCont :
    (({ start with running := false, script := [.draws (pins true false false)] } : State).script =
        .draws (pins true false false) :: [] ∧
      ({ start with running := false, script := [.draws (pins true false false)] } : State).sr.ie = false) ∧
    (({ start with running := false, sr := .ofByte 0x08#8 } : State).script = .draws (pins false false false) :: [] ∧
      ({ start with running := false, sr := .ofByte 0x08#8 } : State).inputs.senseAAtCheck = false) ∧
    (({ start with running := false, script := [] } : State).script = [] ∧
      ({ start with running := false, script := [] } : State).sr.ie = false) ∧
    ({ start with running := false, script := [.cont true] } : State).script = .cont true :: [] := by decide

theorem witness_OtherMasterWrites :
    ({ mixed with script := [.otherMaster 0x1000#16 0x01#8] } : State).script = .otherMaster 0x1000#16 0x01#8 :: [] ∧
    Memory.wf mixed.mem = true ∧ mixed.kindOf 0x1000#16 ≠ .ram ∧ mixed.kindOf 0x0FFF#16 = .ram := by decide

theorem witness_StepKeepsInv :
    Inv State.reset ∧
    step { State.reset with script := [.otherMaster 0x0001#16 0x08#8] } =
      .next { State.reset with mem := [(0x0001, 0x08#8)] } ∧
    Inv { State.reset with script := [.otherMaster 0x0001#16 0x08#8] } :=
  ⟨⟨rfl, fun _ h => (List.not_mem_nil h).elim, rfl, fun h => nomatch h⟩, rfl,
    ⟨rfl, fun _ h => (List.not_mem_nil h).elim, rfl, fun h => nomatch h⟩⟩

/-- The same with a byte in memory on a platform that decodes the two low page bits: place 0x3FFF is listed. -/
theorem witness_StepKeepsInv_listed :
    Inv { State.reset with pageMask := 0b0011#4, mem := [(0x3FFF, 0x01#8)] } :=
  ⟨rfl, by unfold ListsPlaces; decide, rfl, fun h => nomatch h⟩

end Sys2Proof.Tests
end

section
/-! State facts: what `exec`, the fetch and the environment leave unchanged, field by field. Every lemma goes through
`exec_next`, `environmentStep_some` or `step_next`; none unfolds a meaning again. -/

namespace Sys2Proof.Machine

/-! ## Pointers through the shared operations -/

@[simp] theorem addToAc_ptr (b : Byte) (s : State) (q : Ptr) : (addToAc b s).ptr q = s.ptr q := by
  cases q <;> rfl
@[simp] theorem complementAddToAc_ptr (b : Byte) (s : State) (q : Ptr) :
    (complementAddToAc b s).ptr q = s.ptr q := by cases q <;> rfl
@[simp] theorem decimalAddToAc_ptr (b : Byte) (s : State) (q : Ptr) : (decimalAddToAc b s).ptr q = s.ptr q := by
  cases q <;> rfl
@[simp] theorem updateMemory_ptr (f : Byte → Byte) (p : Ptr) (d : Byte) (s : State) (q : Ptr) :
    (updateMemory f p d s).ptr q = s.ptr q := by simp [updateMemory]

/-- A branch writes no pointer but the PC. -/
theorem branchIf_ptr_of_ne {q : Ptr} (hq : q ≠ .p0) (b : Bool) (p : Ptr) (d : Byte) (s : State) :
    (branchIf b p d s).ptr q = s.ptr q := by
  cases b <;> simp [branchIf, hq]

/-- `EA_mem` rewrites only the pointer it auto-indexes (R115, R116). -/
theorem eaMem_ptr {m : IndexMode} {p q : Ptr} {d : Byte} {s t : State} {a : Word}
    (h : eaMem m p d s = some (a, t)) (hq : m = .auto → p ≠ q) : t.ptr q = s.ptr q := by
  rcases eaMem_state h with rfl | ⟨hm, -, rfl⟩
  · rfl
  · simp [(hq hm).symm]

/-- Writing another pointer leaves the PC. -/
theorem State.setPtr_p0_of_ne {p : Ptr} (hp : p ≠ .p0) (s : State) (v : Word) : (s.setPtr p v).p0 = s.p0 := by
  simpa [hp.symm] using s.ptr_setPtr p .p0 v

/-! ## Registers an instruction leaves alone -/

/-- AC is written by the instructions of R21 alone. -/
theorem exec_ac {i : Instr} {s t : State} (h : exec i s = .next t) (hw : mayWriteAc i = false) : t.ac = s.ac := by
  replace h := exec_next h
  cases i <;> cases hw
  case st => obtain ⟨a, r, he, rfl⟩ := h; simp [eaMem_ac he]
  all_goals obtain rfl := h; simp

/-- E is written by XAE and SIO alone (R22). -/
theorem exec_e {i : Instr} {s t : State} (h : exec i s = .next t) (hw : mayWriteE i = false) : t.e = s.e := by
  replace h := exec_next h
  cases i <;> cases hw
  case ld | st | and | or | xor | dad | add | cad => obtain ⟨a, r, he, rfl⟩ := h; simp [eaMem_e he]
  all_goals obtain rfl := h; simp

/-- P1 to P3 are written by auto-indexing and the exchanges alone (R28). -/
theorem exec_ptr {i : Instr} {s t : State} {q : Ptr} (h : exec i s = .next t) (hq : q ≠ .p0)
    (hw : mayWritePointer q i = false) : t.ptr q = s.ptr q := by
  replace h := exec_next h
  cases i
  case ld m p d | st m p d | and m p d | or m p d | xor m p d | dad m p d | add m p d | cad m p d =>
    have hauto : m = .auto → p ≠ q := by
      rintro rfl
      simpa [mayWritePointer] using hw
    obtain ⟨a, r, he, rfl⟩ := h
    simp [eaMem_ptr he hauto]
  case jmp | jp | jz | jnz => obtain rfl := h; exact branchIf_ptr_of_ne hq ..
  case xpal p | xpah p =>
    have hpq : q ≠ p := fun hpq => by simp [mayWritePointer, hpq] at hw
    obtain rfl := h
    simp [hpq]
  case xppc p =>
    have hpq : q ≠ p := fun hpq => by simp [mayWritePointer, hpq] at hw
    obtain rfl := h
    simp [exchangePc_ptr, hq, hpq]
  all_goals obtain rfl := h; simp

/-- The execution of an instruction writes the PC only in the transfers (R30, R33). -/
theorem exec_p0 {i : Instr} {s t : State} (h : exec i s = .next t) (hw : mayWritePc i = false) : t.p0 = s.p0 := by
  replace h := exec_next h
  cases i
  case ld | st | and | or | xor | dad | add | cad => obtain ⟨a, r, he, rfl⟩ := h; simp [eaMem_p0 he]
  case jmp | jp | jz | jnz | xppc => cases hw
  case xpal p | xpah p =>
    have hp : p ≠ .p0 := by simpa [mayWritePc] using hw
    obtain rfl := h
    simp [State.setPtr_p0_of_ne hp]
  all_goals obtain rfl := h; simp

/-- SOUT is latched by SIO alone (R37). -/
theorem exec_sout {i : Instr} {s t : State} (h : exec i s = .next t) (hi : i ≠ .sio) : t.sout = s.sout := by
  replace h := exec_next h
  cases i
  case ld | st | and | or | xor | dad | add | cad => obtain ⟨a, r, he, rfl⟩ := h; simp [eaMem_sout he]
  case sio => exact absurd rfl hi
  all_goals obtain rfl := h; simp

/-- `ien_pending` is set by IEN and CAS alone (R38). -/
theorem exec_ienPending {i : Instr} {s t : State} (h : exec i s = .next t) (hien : i ≠ .ien) (hcas : i ≠ .cas) :
    t.ienPending = s.ienPending := by
  replace h := exec_next h
  cases i
  case ld | st | and | or | xor | dad | add | cad => obtain ⟨a, r, he, rfl⟩ := h; simp [eaMem_ienPending he]
  case ien => exact absurd rfl hien
  case cas => exact absurd rfl hcas
  all_goals obtain rfl := h; simp

/-- The outputs FLAG2 to FLAG0 are written by CAS alone (R24). -/
theorem exec_flagOutputs {i : Instr} {s t : State} (h : exec i s = .next t) (hcas : i ≠ .cas) :
    t.sr.f2 = s.sr.f2 ∧ t.sr.f1 = s.sr.f1 ∧ t.sr.f0 = s.sr.f0 := by
  replace h := exec_next h
  cases i
  case ld | st | and | or | xor | dad | add | cad =>
    obtain ⟨a, r, he, rfl⟩ := h
    simp [eaMem_sr he, addToAc_sr, complementAddToAc_sr, decimalAddToAc_sr]
  case cas => exact absurd rfl hcas
  all_goals obtain rfl := h; simp [addToAc_sr, complementAddToAc_sr, decimalAddToAc_sr]

/-- What lies outside an instruction's reach: CONT's level, the platform's map and page bits, the environment's script
and the draw counter. -/
structure SameSurroundings (s t : State) : Prop where
  running : t.running = s.running
  memmap : t.memmap = s.memmap
  pageMask : t.pageMask = s.pageMask
  script : t.script = s.script
  tick : t.tick = s.tick

theorem exec_surroundings {i : Instr} {s t : State} (h : exec i s = .next t) : SameSurroundings s t := by
  replace h := exec_next h
  cases i
  case ld | st | and | or | xor | dad | add | cad =>
    obtain ⟨a, r, he, rfl⟩ := h
    constructor <;>
      simp [eaMem_running he, eaMem_memmap he, eaMem_pageMask he, eaMem_script he, eaMem_tick he]
  all_goals obtain rfl := h; constructor <;> simp

end Sys2Proof.Machine
end

section
/-! Events: every operation extends the list (R37), and only CAS and reset record levels of the flag outputs (R24). -/

namespace Sys2Proof.Machine

/-! ## The list only grows -/

theorem dataRead_events_extend (a : Word) (s : State) : s.events <+: (dataRead a s).2.events := by
  rw [dataRead, busRead_state]
  split <;> simp

theorem memWrite_events_extend (a : Word) (v : Byte) (s : State) : s.events <+: (memWrite a v s).events := by
  rw [memWrite_events]
  split <;> simp

theorem updateMemory_events_extend (f : Byte → Byte) (p : Ptr) (d : Byte) (s : State) :
    s.events <+: (updateMemory f p d s).events :=
  (dataRead_events_extend _ s).trans (memWrite_events_extend _ _ _)

theorem fetchBytes_events_extend (s : State) : s.events <+: (fetchBytes s).2.events := by
  obtain ⟨new, h⟩ := fetchBytes_events s
  exact ⟨new, h.symm⟩

theorem exec_events_extend {i : Instr} {s t : State} (h : exec i s = .next t) : s.events <+: t.events := by
  replace h := exec_next h
  cases i
  case ld | and | or | xor | dad | add | cad =>
    obtain ⟨a, r, he, rfl⟩ := h
    simpa [eaMem_events he] using dataRead_events_extend a r
  case st =>
    obtain ⟨a, r, he, rfl⟩ := h
    simpa [eaMem_events he] using memWrite_events_extend a r.ac r
  case ild | dld => obtain rfl := h; exact updateMemory_events_extend ..
  all_goals obtain rfl := h; simp

theorem environmentStep_events_extend {s t : State} (h : environmentStep s = some t) : s.events <+: t.events := by
  rcases environmentStep_some h with ⟨_, -, rfl⟩ | ⟨b, _, -, rfl⟩ | ⟨a, v, _, -, rfl⟩ | ⟨-, rfl⟩
  case inl => exact ⟨_, rfl⟩
  all_goals simp

theorem step_events_extend {s t : State} (h : step s = .next t) : s.events <+: t.events := by
  rcases step_next h with henv | ⟨-, i, rest, u, -, hx, rfl⟩
  · exact environmentStep_events_extend henv
  · calc s.events = (interruptCheck s).events := (interruptCheck_events s).symm
      _ <+: (fetchBytes (interruptCheck s)).2.events := fetchBytes_events_extend _
      _ <+: u.events := exec_events_extend hx

/-! ## The last recorded levels of the flag outputs -/

/-- The newest event decides, where it records levels at all. -/
@[simp] theorem lastFlags_concat (evs : List Event) (ev : Event) :
    lastFlags (evs ++ [ev]) = (flagsOfEvent ev).or (lastFlags evs) := by
  induction evs with
  | nil => simp [lastFlags]
  | cons e evs ih => cases hf : flagsOfEvent ev <;> simp [lastFlags, ih, hf]

@[simp] theorem busRead_lastFlags (k : Access) (x : Byte) (a : Word) (s : State) :
    lastFlags (busRead k x a s).2.events = lastFlags s.events := by
  rw [busRead_state]
  split <;> simp [flagsOfEvent]

@[simp] theorem dataRead_lastFlags (a : Word) (s : State) :
    lastFlags (dataRead a s).2.events = lastFlags s.events := busRead_lastFlags ..

@[simp] theorem memWrite_lastFlags (a : Word) (v : Byte) (s : State) :
    lastFlags (memWrite a v s).events = lastFlags s.events := by
  rw [memWrite_events]
  split <;> simp [flagsOfEvent]

@[simp] theorem updateMemory_lastFlags (f : Byte → Byte) (p : Ptr) (d : Byte) (s : State) :
    lastFlags (updateMemory f p d s).events = lastFlags s.events := by simp [updateMemory]

@[simp] theorem fetchByte_lastFlags (x : Byte) (s : State) :
    lastFlags (fetchByte x s).2.events = lastFlags s.events := by simp [fetchByte]

@[simp] theorem fetchBytes_lastFlags (s : State) : lastFlags (fetchBytes s).2.events = lastFlags s.events := by
  rw [fetchBytes_eq]
  split <;> simp

/-- No instruction but CAS records levels of the flag outputs (R24, R37). -/
theorem exec_lastFlags {i : Instr} {s t : State} (h : exec i s = .next t) (hcas : i ≠ .cas) :
    lastFlags t.events = lastFlags s.events := by
  replace h := exec_next h
  cases i
  case ld | st | and | or | xor | dad | add | cad => obtain ⟨a, r, he, rfl⟩ := h; simp [eaMem_events he]
  case cas => exact absurd rfl hcas
  all_goals obtain rfl := h; simp [flagsOfEvent]

end Sys2Proof.Machine
end

section
/-! The page of the PC (R31): who keeps it, instruction by instruction and step by step. -/

namespace Sys2Proof.Machine

@[simp] theorem pageOf_add12 (p : Word) (k : Int) : pageOf (add12 p k) = pageOf p := by simp [add12]

theorem pageOf_toNat (w : Word) : (pageOf w).toNat = w.toNat / 4096 := by
  have := w.isLt
  simp [pageOf, Nat.shiftRight_eq_div_pow]
  omega

/-- XPAL leaves the page of its pointer: the page is in the high byte. -/
@[simp] theorem pageOf_highByte_append (w : Word) (v : Byte) : pageOf (highByte w ++ v) = pageOf w := by
  apply BitVec.eq_of_toNat_eq
  have := v.isLt
  rw [pageOf_toNat, pageOf_toNat, toNat_append_bytes, highByte_toNat]
  omega

/-- A branch through the PC stays in the page, taken or not (R31, R117). -/
theorem branchIf_p0_page (b : Bool) (d : Byte) (s : State) : pageOf (branchIf b .p0 d s).p0 = pageOf s.p0 := by
  rw [branchIf_p0]
  split <;> simp [eaJump]

/-- An instruction that R31 does not list leaves the PC in its page: it does not write the PC, or it is a branch through
the PC or XPAL 0. -/
theorem exec_page {i : Instr} {s t : State} (h : exec i s = .next t) (hw : mayChangePage i = false) :
    pageOf t.p0 = pageOf s.p0 := by
  cases hpc : mayWritePc i with
  | false => rw [exec_p0 h hpc]
  | true =>
    replace h := exec_next h
    cases i
    case jmp p d | jp p d | jz p d | jnz p d =>
      obtain rfl : p = .p0 := by simpa [mayChangePage] using hw
      obtain rfl := h
      exact branchIf_p0_page ..
    case xpal p =>
      obtain rfl : p = .p0 := by simpa [mayWritePc] using hpc
      obtain rfl := h
      simp
    case xpah p => exact absurd (hpc.symm.trans hw) (by decide)
    case xppc => cases hw
    all_goals cases hpc

/-- Without a request taken the interrupt check leaves the PC. -/
theorem interruptCheck_p0_of_not_taken {s : State} (h : interruptTaken s = false) : (interruptCheck s).p0 = s.p0 := by
  simp [interruptCheck, h]

theorem environmentStep_p0 {s t : State} (h : environmentStep s = some t) (hn : s.script.head? ≠ some .nrst) :
    t.p0 = s.p0 := by
  rcases environmentStep_some h with ⟨_, hs, -⟩ | ⟨b, _, -, rfl⟩ | ⟨a, v, _, -, rfl⟩ | ⟨-, rfl⟩
  case inl => simp [hs] at hn
  all_goals simp

/-- Settles O48: a step of the environment but NRST leaves the PC; in an instruction step the check without entry and the
fetch keep the page, so the execution must have changed it. -/
theorem pageChangesOnlyBy : Obligations.PageChangesOnlyBy := by
  intro s t _ h hpage
  by_contra hnone
  obtain ⟨hnrst, hrest⟩ := not_or.mp hnone
  rcases step_next h with henv | ⟨hnext, i, rest, u, hd, hx, rfl⟩
  · exact hpage (congrArg pageOf (environmentStep_p0 henv hnrst))
  · have htaken : interruptTaken s = false :=
      Bool.eq_false_iff.mpr fun ht => hrest ⟨hnext, .inl ht⟩
    have hmay : mayChangePage i = false :=
      Bool.eq_false_iff.mpr fun hm => hrest ⟨hnext, .inr ⟨i, rest, hd, hm⟩⟩
    apply hpage
    calc pageOf u.nextDraws.p0 = pageOf u.p0 := rfl
      _ = pageOf (fetchBytes (interruptCheck s)).2.p0 := exec_page hx hmay
      _ = pageOf (interruptCheck s).p0 := fetchBytes_page _
      _ = pageOf s.p0 := by rw [interruptCheck_p0_of_not_taken htaken]

end Sys2Proof.Machine
end

section
/-! The invariant `Inv`: it holds at reset and every part of a step keeps it. Its memory and its flag part are kept by
every instruction; `ien_pending` is sound after an instruction because the interrupt check has cleared it before. -/

namespace Sys2Proof.Machine

/-! ## Memory lists only places -/

theorem ListsPlaces.congr {s t : State} (h : ListsPlaces s) (hmem : t.mem = s.mem) (hmask : t.pageMask = s.pageMask) :
    ListsPlaces t := by
  intro c hc
  rw [State.place_congr hmask]
  exact h c (hmem ▸ hc)

/-- What a store adds to the list is a place. -/
theorem ListsPlaces.storeByte {s : State} (h : ListsPlaces s) (a : Word) (v : Byte) :
    ListsPlaces (storeByte a v s) := by
  intro c hc
  rw [storeByte_place]
  rw [storeByte_mem] at hc
  split at hc
  · rcases Memory.mem_write hc with rfl | hc
    · simp
    · exact h c hc
  · exact h c hc

theorem ListsPlaces.exec {i : Instr} {s t : State} (h : ListsPlaces s) (hx : exec i s = .next t) : ListsPlaces t := by
  have hmask := (exec_surroundings hx).pageMask
  rcases exec_mem hx with hmem | ⟨a, v, hmem⟩
  · exact h.congr hmem hmask
  · exact (h.storeByte a v).congr hmem (by simpa using hmask)

/-! ## The flag outputs and the pending IEN -/

/-- CAS records the levels it stores; no other instruction touches the flag outputs or their record (R24, R37). -/
theorem FlagsRecorded.exec {i : Instr} {s t : State} (h : FlagsRecorded s) (hx : exec i s = .next t) :
    FlagsRecorded t := by
  by_cases hcas : i = .cas
  · subst hcas
    obtain rfl := exec_next hx
    simp [FlagsRecorded, flagsOfEvent, Status.ofByte]
  · obtain ⟨h2, h1, h0⟩ := exec_flagOutputs hx hcas
    rw [FlagsRecorded, exec_lastFlags hx hcas, h2, h1, h0]
    exact h

/-- IEN and CAS leave the next check to be skipped only with IEN_LATENCY = 1 and IE set (R204, R207). -/
theorem ienPendingSound_exec {i : Instr} {s t : State} (hs : s.ienPending = false) (hx : exec i s = .next t) :
    IenPendingSound t := by
  intro ht
  by_cases hien : i = .ien
  · subst hien
    obtain rfl := exec_next hx
    simpa [hs] using ht
  by_cases hcas : i = .cas
  · subst hcas
    obtain rfl := exec_next hx
    simp_all [casSkipsCheck, Status.ofByte]
  · rw [exec_ienPending hx hien hcas, hs] at ht
    cases ht

/-! ## Every part of a step -/

/-- The invariant reads memory, the page bits, the last recorded flags, SR and `ien_pending`, and nothing else. -/
theorem Inv.congr {s t : State} (h : Inv s) (hmem : t.mem = s.mem) (hmask : t.pageMask = s.pageMask)
    (hflags : lastFlags t.events = lastFlags s.events) (hsr : t.sr = s.sr) (hpending : t.ienPending = s.ienPending) :
    Inv t where
  memory := hmem ▸ h.memory
  places := h.places.congr hmem hmask
  flags := by rw [FlagsRecorded, hflags, hsr]; exact h.flags
  pending := by rw [IenPendingSound, hpending, hsr]; exact h.pending

/-- Settles O57. -/
theorem resetHasInv : Obligations.ResetHasInv where
  memory := reset_memory_wf
  places := by simp [ListsPlaces, State.reset]
  flags := rfl
  pending := by simp [IenPendingSound, State.reset]

theorem Inv.nrstReset {s : State} (h : Inv s) : Inv (nrstReset s) where
  memory := h.memory
  places := h.places.congr rfl rfl
  flags := lastFlags_concat s.events (.flags false false false)
  pending := by simp [IenPendingSound, Machine.nrstReset, State.reset]

theorem Inv.storeByte {s : State} (h : Inv s) (a : Word) (v : Byte) : Inv (storeByte a v s) where
  memory := storeByte_wf h.memory
  places := h.places.storeByte a v
  flags := by simpa [FlagsRecorded] using h.flags
  pending := by simpa [IenPendingSound] using h.pending

theorem Inv.dropEntry {s : State} (h : Inv s) : Inv s.dropEntry := h.congr rfl rfl rfl rfl rfl

theorem Inv.environmentStep {s t : State} (h : Inv s) (he : environmentStep s = some t) : Inv t := by
  rcases environmentStep_some he with ⟨_, -, rfl⟩ | ⟨b, _, -, rfl⟩ | ⟨a, v, _, -, rfl⟩ | ⟨-, rfl⟩
  · exact h.dropEntry.nrstReset
  · exact h.dropEntry.congr rfl rfl rfl rfl rfl
  · exact h.dropEntry.storeByte a v
  · exact h.dropEntry

/-- Interrupt entry clears IE and no flag output (R224). -/
theorem FlagsRecorded.interruptCheck {s : State} (h : FlagsRecorded s) : FlagsRecorded (interruptCheck s) := by
  unfold Machine.interruptCheck interruptEntry
  split <;> simpa [FlagsRecorded] using h

theorem Inv.interruptCheck {s : State} (h : Inv s) : Inv (interruptCheck s) where
  memory := by simpa using h.memory
  places := h.places.congr (interruptCheck_mem s) (interruptCheck_pageMask s)
  flags := h.flags.interruptCheck
  pending := by simp [IenPendingSound]

theorem Inv.fetchBytes {s : State} (h : Inv s) : Inv (fetchBytes s).2 := by
  apply h.congr <;> simp

theorem Inv.exec {i : Instr} {s t : State} (h : Inv s) (hs : s.ienPending = false) (hx : exec i s = .next t) :
    Inv t where
  memory := exec_wf hx h.memory
  places := h.places.exec hx
  flags := h.flags.exec hx
  pending := ienPendingSound_exec hs hx

/-- Settles O56, part by part of the step: the environment's event, or interrupt check, fetch and execution. -/
theorem stepKeepsInv : Obligations.StepKeepsInv := by
  intro s t h hstep
  rcases step_next hstep with henv | ⟨-, i, rest, u, -, hx, rfl⟩
  · exact h.environmentStep henv
  · have hfetched : Inv (Machine.fetchBytes (Machine.interruptCheck s)).2 := h.interruptCheck.fetchBytes
    have hu : Inv u := hfetched.exec (by simp) hx
    exact hu.congr rfl rfl rfl rfl rfl

end Sys2Proof.Machine
end

section
/-! The frame obligations on single instructions, the order of a step, and the stopped processor. -/

namespace Sys2Proof.Machine

/-- Settles O40: CAS stores the six other bits of AC, and CSA packs them with the pins. -/
theorem senseBitsAreNotStorage : Obligations.SenseBitsAreNotStorage :=
  fun s _ _ => ⟨_, _, rfl, rfl, ofByte_toByte s.ac _ _⟩

/-- Settles O42. -/
theorem acAndEOnlyByListed : Obligations.AcAndEOnlyByListed :=
  fun _ _ _ h => ⟨exec_ac h, exec_e h⟩

/-- Settles O44. -/
theorem pointersOnlyByListed : Obligations.PointersOnlyByListed :=
  fun _ _ _ h => ⟨fun _ hp hw => exec_ptr h hp hw, exec_p0 h⟩

/-- Settles O46. -/
theorem otherStateOnlyByListed : Obligations.OtherStateOnlyByListed := by
  intro i s t h
  obtain ⟨hrunning, hmemmap, hmask, hscript, htick⟩ := exec_surroundings h
  exact ⟨hrunning, hmemmap, hmask, hscript, htick, exec_sout h, exec_ienPending h⟩

/-- Settles O47. -/
theorem eventsOnlyAppended : Obligations.EventsOnlyAppended := by
  intro s t h
  obtain ⟨new, hnew⟩ := step_events_extend h
  exact ⟨new, hnew.symm⟩

/-! ## The order of a step -/

theorem step_of_environment {s t : State} (h : environmentStep s = some t) : step s = .next t := by
  simp [step, h]

theorem step_of_instructionNext {s : State} (h : InstructionNext s) : step s = instructionStep s := by
  rw [InstructionNext] at h
  simp [step, h]

theorem fetchInstruction_of_decode {s : State} {i : Instr} {rest : List Byte}
    (h : decode (fetchBytes s).1 = .ok (i, rest)) : fetchInstruction s = .ok (i, (fetchBytes s).2) := by
  simp [fetchInstruction, h]

/-- Settles O5. -/
theorem stepRunsDecodedInstruction : Obligations.StepRunsDecodedInstruction := by
  intro s i rest hnext hdecode
  rw [step_of_instructionNext hnext, instructionStep, fetchInstruction_of_decode hdecode]

/-- A read where memory holds the byte returns it and leaves the state alone (spec/20_memory.md R53). -/
theorem busRead_of_isMemory {s : State} {a : Word} (h : IsMemory s a) (k : Access) (x : Byte) :
    busRead k x a s = (s.byteAt a, s) := by
  rcases h with h | h <;> simp [busRead, h]

/-- The PC is incremented, then the byte there is fetched (R32). -/
theorem fetchByte_of_isMemory {s : State} (h : IsMemory s (inc12 s.p0)) (x : Byte) :
    fetchByte x s = (s.byteAt (inc12 s.p0), { s with p0 := inc12 s.p0 }) :=
  busRead_of_isMemory (s := s.setPc (inc12 s.p0)) h .fetch x

/-- Settles O6: bit 7 of the first byte decides whether `fetchByte_of_isMemory` applies once or twice. -/
theorem fetchReadsAfterIncrement : Obligations.FetchReadsAfterIncrement := by
  intro s hfirst
  rw [fetchBytes_eq, isTwoByte_eq, fetchByte_of_isMemory hfirst]
  constructor
  · intro hbit
    rw [hbit]
    rfl
  · intro hbit hsecond
    have hfetch := fetchByte_of_isMemory (s := { s with p0 := inc12 s.p0 }) hsecond s.inputs.fetchByte2
    simp only [hbit, if_true, hfetch]
    rfl

/-! ## Reset and the stopped processor -/

/-- Settles O52. -/
theorem resetRegisters : Obligations.ResetRegisters := by
  refine ⟨rfl, rfl, rfl, ?_, rfl, rfl⟩
  intro p
  cases p <;> rfl

theorem State.dropEntry_of_script {s : State} {x : ScriptEntry} {rest : List ScriptEntry} (h : s.script = x :: rest) :
    s.dropEntry = { s with script := rest } := by
  simp [State.dropEntry, h]

theorem State.dropEntry_of_script_nil {s : State} (h : s.script = []) : s.dropEntry = s := by
  rw [State.dropEntry, h, List.tail_nil, ← h]

/-- Settles O54: each clause names the head of the script, and so the environment's step. -/
theorem stoppedByCont : Obligations.StoppedByCont := by
  refine ⟨?_, ?_, ?_⟩
  · intro s d rest hstopped hscript _
    rw [← State.dropEntry_of_script hscript]
    exact step_of_environment (by simp [environmentStep, hscript, hstopped])
  · intro s hstopped hscript _
    have henv : environmentStep s = some s.dropEntry := by simp [environmentStep, hscript, hstopped]
    rw [step_of_environment henv, State.dropEntry_of_script_nil hscript]
  · intro s b rest hscript
    have henv : environmentStep s = some (s.dropEntry.setRunning b) := by simp [environmentStep, hscript]
    rw [step_of_environment henv, State.dropEntry_of_script hscript]
    rfl

end Sys2Proof.Machine
end

section
/-! Memory (spec/20_memory.md): what reads and writes do by kind of address, which page bits tell two addresses apart,
and that no step reaches a byte that is not RAM. -/

namespace Sys2Proof.Machine

/-! ## One write, one read -/

/-- A byte of memory is read through the memory list and the page bits alone. -/
theorem State.byteAt_of_mem {s t : State} (hmem : t.mem = s.mem) (hmask : t.pageMask = s.pageMask) (a : Word) :
    t.byteAt a = s.byteAt a := by
  simp [State.byteAt, hmem, State.place_congr hmask]

/-- The kind of an address is read through the map and the page bits alone. -/
theorem State.kindOf_of_memmap {s t : State} (hmap : t.memmap = s.memmap) (hmask : t.pageMask = s.pageMask) (a : Word) :
    t.kindOf a = s.kindOf a := by
  simp [State.kindOf, hmap, State.place_congr hmask]

theorem storeByte_eq_setMem (a : Word) (v : Byte) (s : State) : storeByte a v s = s.setMem (storeByte a v s).mem := by
  unfold storeByte
  split <;> rfl

theorem storeByte_of_not_ram {a : Word} {s : State} (h : s.kindOf a ≠ .ram) (v : Byte) : storeByte a v s = s := by
  rw [storeByte_eq_setMem, storeByte_mem, if_neg h]
  rfl

theorem memWrite_of_not_device {a : Word} {s : State} (h : s.kindOf a ≠ .device) (v : Byte) :
    memWrite a v s = storeByte a v s := by
  rw [memWrite_eq, if_neg h]

/-- Settles O12. -/
theorem readByKind : Obligations.ReadByKind := by
  intro k x a s
  refine ⟨fun hmem => busRead_of_isMemory hmem k x, fun hdevice => ?_, fun hempty => ?_⟩
  · exact Prod.ext (by simp [busRead_value, hdevice]) (by rw [busRead_state, if_pos hdevice]; rfl)
  · exact Prod.ext (by simp [busRead_value, hempty]) (by simp [busRead_state, hempty])

/-- Settles O13. -/
theorem writeByKind : Obligations.WriteByKind := by
  intro a v s hwf
  refine ⟨fun hram => ⟨?_, fun b => ?_⟩, fun hlost => ?_, fun hdevice => ?_⟩
  · rw [memWrite_of_not_device (by simp [hram])]
    exact storeByte_eq_setMem a v s
  · simp [memWrite_byteAt hwf, hram]
  · obtain ⟨hdevice, hram⟩ : s.kindOf a ≠ .device ∧ s.kindOf a ≠ .ram := by
      rcases hlost with h | h <;> simp [h]
    rw [memWrite_of_not_device hdevice, storeByte_of_not_ram hram]
  · rw [memWrite_eq, if_pos hdevice]
    rfl

/-! ## The page bits the platform decodes (R51, R59) -/

/-- Where no page bit is decoded, the offset alone is the place. -/
theorem State.place_eq_iff_of_no_pages {s : State} (h : s.pageMask = 0b0000#4) (a b : Word) :
    s.place b = s.place a ↔ offsetOf b = offsetOf a := by
  constructor
  · intro hplace
    simpa [State.place] using congrArg offsetOf hplace
  · intro hoffset
    simp [State.place, h, hoffset]

/-- Where every page bit is decoded, an address is its own place. -/
theorem State.place_of_all_pages {s : State} (h : s.pageMask = 0b1111#4) (a : Word) : s.place a = a := by
  have hpage : pageOf a &&& 0b1111#4 = pageOf a := BitVec.and_allOnes
  rw [State.place, h, hpage, page_append_offset]

/-- Settles O58. -/
theorem pageBitsByPlatform : Obligations.PageBitsByPlatform := by
  intro a b v s
  refine ⟨fun hnone hoffset => ?_, fun hnone hwf hram => ?_, fun hall hwf hram => ?_⟩
  · have hplace : s.place b = s.place a := (State.place_eq_iff_of_no_pages hnone a b).mpr hoffset
    exact ⟨State.byteAt_congr hplace, State.kindOf_congr hplace⟩
  · simp [memWrite_byteAt hwf, hram, State.place_eq_iff_of_no_pages hnone]
  · simp [memWrite_byteAt hwf, hram, State.place_of_all_pages hall]

/-! ## What each part of a step does to memory -/

/-- The memory list itself is unchanged by all but the three storing instructions (R52). -/
theorem exec_mem_of_not_store {i : Instr} {s t : State} (h : exec i s = .next t) (hw : mayWriteMemory i = false) :
    t.mem = s.mem := by
  replace h := exec_next h
  cases i
  case st | ild | dld => cases hw
  case ld | and | or | xor | dad | add | cad => obtain ⟨a, r, he, rfl⟩ := h; simp [eaMem_mem he]
  all_goals obtain rfl := h; simp

/-- Settles O45. -/
theorem memoryOnlyByStores : Obligations.MemoryOnlyByStores :=
  fun _ _ _ h hw => State.byteAt_of_mem (exec_mem_of_not_store h hw) (exec_surroundings h).pageMask

/-- What no step may touch: the platform's map and page bits, and every byte that is not RAM (R53, R59). -/
structure NonRamKept (s t : State) : Prop where
  memmap : t.memmap = s.memmap
  pageMask : t.pageMask = s.pageMask
  byteAt : ∀ a : Word, s.kindOf a ≠ .ram → t.byteAt a = s.byteAt a

theorem NonRamKept.of_mem {s t : State} (hmap : t.memmap = s.memmap) (hmask : t.pageMask = s.pageMask)
    (hmem : t.mem = s.mem) : NonRamKept s t where
  memmap := hmap
  pageMask := hmask
  byteAt a _ := State.byteAt_of_mem hmem hmask a

/-- Kinds of addresses being kept too, the parts of a step compose. -/
theorem NonRamKept.trans {s t u : State} (hst : NonRamKept s t) (htu : NonRamKept t u) : NonRamKept s u where
  memmap := htu.memmap.trans hst.memmap
  pageMask := htu.pageMask.trans hst.pageMask
  byteAt a ha := by
    have hkind : t.kindOf a = s.kindOf a := State.kindOf_of_memmap hst.memmap hst.pageMask a
    rw [htu.byteAt a (hkind ▸ ha), hst.byteAt a ha]

theorem storeByte_nonRamKept (a : Word) (v : Byte) (s : State) : NonRamKept s (storeByte a v s) where
  memmap := storeByte_memmap a v s
  pageMask := storeByte_pageMask a v s
  byteAt _ := storeByte_nonRam

/-- An instruction writes memory by at most one store. -/
theorem exec_nonRamKept {i : Instr} {s t : State} (h : exec i s = .next t) : NonRamKept s t := by
  obtain ⟨-, hmap, hmask, -, -⟩ := exec_surroundings h
  rcases exec_mem h with hmem | ⟨a, v, hmem⟩
  · exact .of_mem hmap hmask hmem
  · exact (storeByte_nonRamKept a v s).trans (.of_mem (by simpa using hmap) (by simpa using hmask) hmem)

/-- Of the environment's events only another master's write reaches memory, and it is a store as well (R66). -/
theorem environmentStep_nonRamKept {s t : State} (h : environmentStep s = some t) : NonRamKept s t := by
  have hdrop : NonRamKept s s.dropEntry := .of_mem rfl rfl rfl
  rcases environmentStep_some h with ⟨_, -, rfl⟩ | ⟨b, _, -, rfl⟩ | ⟨a, v, _, -, rfl⟩ | ⟨-, rfl⟩
  · exact .of_mem rfl rfl rfl
  · exact .of_mem rfl rfl rfl
  · exact hdrop.trans (storeByte_nonRamKept a v _)
  · exact hdrop

theorem fetched_nonRamKept (s : State) : NonRamKept s (fetchBytes (interruptCheck s)).2 :=
  .of_mem (by simp) (by simp) (by simp)

theorem step_nonRamKept {s t : State} (h : step s = .next t) : NonRamKept s t := by
  rcases step_next h with henv | ⟨-, i, rest, u, -, hx, rfl⟩
  · exact environmentStep_nonRamKept henv
  · have hu : NonRamKept s u := (fetched_nonRamKept s).trans (exec_nonRamKept hx)
    exact hu.trans (.of_mem rfl rfl rfl)

/-- Settles O14. -/
theorem nonRamNeverChanges : Obligations.NonRamNeverChanges := by
  intro s t h
  obtain ⟨hmap, hmask, hbyte⟩ := step_nonRamKept h
  exact ⟨hmap, hmask, hbyte⟩

/-! ## Stores seen from outside the instruction -/

theorem fetchBytes_head (s : State) : (fetchBytes s).1.head? = some (fetchByte s.inputs.fetchByte1 s).1 := by
  rw [fetchBytes_eq]
  split <;> rfl

theorem fetchBytes_head_of_isMemory {s : State} (h : IsMemory s (inc12 s.p0)) :
    (fetchBytes s).1.head? = some (s.byteAt (inc12 s.p0)) := by
  rw [fetchBytes_head, fetchByte_of_isMemory h]

/-- ST is a write of AC at the effective address, in the state the address computation leaves (R131). -/
theorem exec_st_next {m : IndexMode} {p : Ptr} {d : Byte} {a : Word} {s t u : State} (hea : eaMem m p d s = some (a, t))
    (h : exec (.st m p d) s = .next u) : u = memWrite a s.ac t := by
  obtain ⟨b, r, hb, rfl⟩ := exec_next h
  obtain ⟨rfl, rfl⟩ : a = b ∧ t = r := by simpa [hea] using hb
  rw [eaMem_ac hea]

/-- Settles O15: the write leaves the address RAM that reads AC, and the end of the step changes neither. -/
theorem storeSeenByNextFetch : Obligations.StoreSeenByNextFetch := by
  intro m p d a s t u hwf hea hram hx hpc
  obtain rfl := exec_st_next hea hx
  have hramT : t.kindOf a = .ram :=
    (State.kindOf_of_memmap (eaMem_memmap hea) (eaMem_pageMask hea) a).trans hram
  have hramU : (memWrite a s.ac t).kindOf a = .ram :=
    (State.kindOf_of_memmap (memWrite_memmap ..) (memWrite_pageMask ..) a).trans hramT
  have hnext : inc12 (memWrite a s.ac t).nextDraws.p0 = a := hpc
  have hwfT : Memory.wf t.mem = true := (eaMem_mem hea).symm ▸ hwf
  have hmemory : IsMemory (memWrite a s.ac t).nextDraws (inc12 (memWrite a s.ac t).nextDraws.p0) := by
    rw [hnext]
    exact .inl hramU
  calc (fetchBytes (memWrite a s.ac t).nextDraws).1.head?
      _ = some ((memWrite a s.ac t).nextDraws.byteAt a) := by rw [fetchBytes_head_of_isMemory hmemory, hnext]
      _ = some s.ac := by simp [memWrite_byteAt hwfT, hramT]

/-- Settles O55. -/
theorem otherMasterWrites : Obligations.OtherMasterWrites := by
  intro s a v rest hscript hwf
  have henv : environmentStep s = some (storeByte a v s.dropEntry) := by simp [environmentStep, hscript]
  refine ⟨_, step_of_environment henv, ?_, fun b => ?_⟩
  · rw [storeByte_eq_setMem, State.dropEntry_of_script hscript]
    rfl
  · rw [storeByte_byteAt (s := s.dropEntry) hwf]
    exact if_congr and_comm rfl rfl

end Sys2Proof.Machine
end

section
/-! The decoder and the encoder against each other (spec/30_encoding.md): the fields of a first byte, one equation per
format of R81 for each direction of the round trip, and the first bytes of R88. -/

namespace Sys2Proof

/-! ## The fields of a first byte (R82, R83) -/

@[simp] theorem Ptr.ofBits_toBits (p : Ptr) : Ptr.ofBits p.toBits = p := by cases p <;> rfl

@[simp] theorem Ptr.toBits_ofBits (b : BitVec 2) : (Ptr.ofBits b).toBits = b := by revert b; decide

@[simp] theorem IndexMode.ofBit_toBit (m : IndexMode) : IndexMode.ofBit m.toBit = m := by cases m <;> rfl

@[simp] theorem IndexMode.toBit_ofBit (b : BitVec 1) : (IndexMode.ofBit b).toBit = b := by revert b; decide

/-- Bits 2 to 0 are `100` exactly where format MR would auto-index the PC; format IM has its codes there (R83, R89). -/
theorem memFields_wellFormed_eq (op : Byte) :
    MemFields.wellFormed (IndexMode.ofBit (bitField op 2 1)) (Ptr.ofBits (bitField op 0 2)) =
      !decide (bitField op 0 3 = 0b100#3) := by
  revert op; decide

/-- A first byte from its upper six bits and `ptr` (formats PT, ID and JP). -/
theorem append_bitField_ptr (op : Byte) : (bitField op 2 6 ++ bitField op 0 2 : Byte) = op := by
  revert op; decide

/-- A first byte of format JP from its fields. -/
theorem append_bitField_branch (op : Byte) :
    (bitField op 4 4 ++ bitField op 2 2 ++ bitField op 0 2 : Byte) = op := by
  revert op; decide

/-- A first byte of format MR from its fields. -/
theorem append_bitField_memory (op : Byte) :
    (bitField op 6 2 ++ bitField op 3 3 ++ bitField op 2 1 ++ bitField op 0 2 : Byte) = op := by
  revert op; decide

/-- A first byte of format IM from its fields. -/
theorem append_bitField_immediate (op : Byte) :
    (bitField op 6 2 ++ bitField op 3 3 ++ bitField op 0 3 : Byte) = op := by
  revert op; decide

/-! ## What the three field decoders return, as bytes -/

theorem bitVec3_cases (o : BitVec 3) :
    o = 0b000#3 ∨ o = 0b001#3 ∨ o = 0b010#3 ∨ o = 0b011#3 ∨ o = 0b100#3 ∨ o = 0b101#3 ∨ o = 0b110#3 ∨ o = 0b111#3 := by
  revert o; decide

theorem bitVec2_cases (c : BitVec 2) : c = 0b00#2 ∨ c = 0b01#2 ∨ c = 0b10#2 ∨ c = 0b11#2 := by
  revert c; decide

@[simp] theorem decodeMemory_wellFormed (o : BitVec 3) (m : IndexMode) (p : Ptr) (d : Byte) :
    (decodeMemory o m p d).wellFormed = MemFields.wellFormed m p := by
  rcases bitVec3_cases o with rfl | rfl | rfl | rfl | rfl | rfl | rfl | rfl <;> rfl

theorem encode_decodeMemory (o : BitVec 3) (m : IndexMode) (p : Ptr) (d : Byte) :
    encode (decodeMemory o m p d) = encodeMemory (0b11#2 ++ o) m p d := by
  rcases bitVec3_cases o with rfl | rfl | rfl | rfl | rfl | rfl | rfl | rfl <;> rfl

@[simp] theorem decodeBranch_wellFormed (c : BitVec 2) (p : Ptr) (d : Byte) :
    (decodeBranch c p d).wellFormed = true := by
  rcases bitVec2_cases c with rfl | rfl | rfl | rfl <;> rfl

theorem encode_decodeBranch (c : BitVec 2) (p : Ptr) (d : Byte) :
    encode (decodeBranch c p d) = encodePtrDisp (0b1001#4 ++ c) p d := by
  rcases bitVec2_cases c with rfl | rfl | rfl | rfl <;> rfl

/-- No store has an immediate operand (R89). -/
theorem decodeImmediate_eq_none_iff {o : BitVec 3} {d : Byte} : decodeImmediate o d = none ↔ o = 0b001#3 := by
  rcases bitVec3_cases o with rfl | rfl | rfl | rfl | rfl | rfl | rfl | rfl <;> simp [decodeImmediate]

theorem encode_of_decodeImmediate {o : BitVec 3} {d : Byte} {i : Instr} (h : decodeImmediate o d = some i) :
    i.wellFormed = true ∧ encode i = [0b11#2 ++ o ++ 0b100#3, d] := by
  rcases bitVec3_cases o with rfl | rfl | rfl | rfl | rfl | rfl | rfl | rfl <;> cases h <;> exact ⟨rfl, rfl⟩

/-! ## The two lengths of an instruction (R80) -/

theorem decodeOpcode_eq_ok_iff {op d : Byte} {i : Instr} :
    decodeOpcode op d = .ok i ↔ (if isTwoByte op then decodeTwoByte op d else decodeOneByte op) = some i := by
  rw [decodeOpcode]
  split <;> simp_all

theorem decodeOpcode_eq_error_iff {op d : Byte} {e : DecodeError} :
    decodeOpcode op d = .error e ↔
      (if isTwoByte op then decodeTwoByte op d else decodeOneByte op) = none ∧ e = .undefinedOpcode op := by
  rw [decodeOpcode]
  split
  next hsome => simp [hsome]
  next hnone => simp [hnone, eq_comm (a := e)]

theorem decode_of_decodeTwoByte {op d : Byte} {i : Instr} (rest : List Byte) (hlen : isTwoByte op = true)
    (h : decodeTwoByte op d = some i) : decode (op :: d :: rest) = .ok (i, rest) := by
  have hop : decodeOpcode op d = .ok i := by simp [decodeOpcode_eq_ok_iff, hlen, h]
  rw [decode_twoByte d rest hlen, hop]
  rfl

theorem map_pair_eq_ok_iff {x : Except DecodeError Instr} {i : Instr} {r rest : List Byte} :
    (x.map fun j => (j, r)) = .ok (i, rest) ↔ x = .ok i ∧ r = rest := by
  cases x <;> simp [Except.map]

theorem map_pair_eq_error_iff {x : Except DecodeError Instr} {r : List Byte} {e : DecodeError} :
    (x.map fun j => (j, r)) = .error e ↔ x = .error e := by
  cases x <;> simp [Except.map]

/-- Whatever decodes is an instruction of one byte or of two, and the bytes after it are left over. -/
theorem decode_ok_cases {bs rest : List Byte} {i : Instr} (h : decode bs = .ok (i, rest)) :
    (∃ op, bs = op :: rest ∧ decodeOneByte op = some i) ∨
      (∃ op d, bs = op :: d :: rest ∧ decodeTwoByte op d = some i) := by
  cases bs with
  | nil => cases h
  | cons op tail =>
    cases hlen : isTwoByte op with
    | false =>
      rw [decode_oneByte tail hlen, map_pair_eq_ok_iff, decodeOpcode_eq_ok_iff] at h
      obtain ⟨hop, rfl⟩ := h
      exact .inl ⟨op, rfl, by simpa [hlen] using hop⟩
    | true =>
      cases tail with
      | nil => rw [decode_cutShort hlen] at h; cases h
      | cons d tail =>
        rw [decode_twoByte d tail hlen, map_pair_eq_ok_iff, decodeOpcode_eq_ok_iff] at h
        obtain ⟨hop, rfl⟩ := h
        exact .inr ⟨op, d, rfl, by simpa [hlen] using hop⟩

/-! ## From the encoding to the instruction -/

/-- The fields of a first byte of format JP. -/
theorem bitField_branch (c q : BitVec 2) :
    bitField (0b1001#4 ++ c ++ q) 4 4 = 0b1001#4 ∧ bitField (0b1001#4 ++ c ++ q) 2 2 = c ∧
      bitField (0b1001#4 ++ c ++ q) 0 2 = q := by
  revert c q; decide

/-- The fields of a first byte of format MR. -/
theorem bitField_memory (o : BitVec 3) (b : BitVec 1) (q : BitVec 2) :
    bitField (0b11#2 ++ o ++ b ++ q) 6 2 = 0b11#2 ∧ bitField (0b11#2 ++ o ++ b ++ q) 3 3 = o ∧
      bitField (0b11#2 ++ o ++ b ++ q) 2 1 = b ∧ bitField (0b11#2 ++ o ++ b ++ q) 0 2 = q := by
  revert o b q; decide

/-- Format JP has a code group of its own: bits 7 to 4 are `1001` (R81). -/
theorem decodeTwoByte_of_branch {op : Byte} (d : Byte) (h : bitField op 4 4 = 0b1001#4) :
    isTwoByte op = true ∧
      decodeTwoByte op d = some (decodeBranch (bitField op 2 2) (Ptr.ofBits (bitField op 0 2)) d) := by
  have hother : isTwoByte op = true ∧ op ≠ 0x8F#8 := by revert op; decide
  obtain ⟨hlen, hdly⟩ := hother
  exact ⟨hlen, by rw [decodeTwoByte, if_neg hdly, if_pos h]⟩

/-- Formats MR and IM share the code group `11`; bits 2 to 0 tell them apart (R81, R83). -/
theorem decodeTwoByte_of_memory {op : Byte} (d : Byte) (h : bitField op 6 2 = 0b11#2) :
    isTwoByte op = true ∧
      decodeTwoByte op d =
        if bitField op 0 3 = 0b100#3 then decodeImmediate (bitField op 3 3) d
        else
          some (decodeMemory (bitField op 3 3) (IndexMode.ofBit (bitField op 2 1)) (Ptr.ofBits (bitField op 0 2)) d) := by
  have hother : isTwoByte op = true ∧ op ≠ 0x8F#8 ∧ bitField op 4 4 ≠ 0b1001#4 ∧ bitField op 2 6 ≠ 0b101010#6 ∧
      bitField op 2 6 ≠ 0b101110#6 := by revert op; decide
  obtain ⟨hlen, hdly, hbranch, hild, hdld⟩ := hother
  exact ⟨hlen, by rw [decodeTwoByte, if_neg hdly, if_neg hbranch, if_neg hild, if_neg hdld, if_pos h]⟩

theorem decode_encodeBranch (c : BitVec 2) (p : Ptr) (d : Byte) (rest : List Byte) :
    decode (encodePtrDisp (0b1001#4 ++ c) p d ++ rest) = .ok (decodeBranch c p d, rest) := by
  obtain ⟨hgroup, hcond, hptr⟩ := bitField_branch c p.toBits
  obtain ⟨hlen, hdecode⟩ := decodeTwoByte_of_branch d hgroup
  rw [hcond, hptr, Ptr.ofBits_toBits] at hdecode
  exact decode_of_decodeTwoByte rest hlen hdecode

theorem decode_encodeMemory {m : IndexMode} {p : Ptr} (h : MemFields.wellFormed m p = true) (o : BitVec 3) (d : Byte)
    (rest : List Byte) :
    decode (encodeMemory (0b11#2 ++ o) m p d ++ rest) = .ok (decodeMemory o m p d, rest) := by
  obtain ⟨hgroup, hop, hmode, hptr⟩ := bitField_memory o m.toBit p.toBits
  obtain ⟨hlen, hdecode⟩ := decodeTwoByte_of_memory d hgroup
  have hform := memFields_wellFormed_eq (0b11#2 ++ o ++ m.toBit ++ p.toBits)
  rw [hmode, hptr, IndexMode.ofBit_toBit, Ptr.ofBits_toBits, h] at hform
  have hmemory : ¬ bitField (0b11#2 ++ o ++ m.toBit ++ p.toBits) 0 3 = 0b100#3 := by simpa using hform
  rw [if_neg hmemory, hop, hmode, hptr, IndexMode.ofBit_toBit, Ptr.ofBits_toBits] at hdecode
  exact decode_of_decodeTwoByte rest hlen hdecode

/-- Settles O1, format by format. -/
theorem decodeOfEncode : Obligations.DecodeOfEncode := by
  intro i rest h
  cases i with
  | ld m p d => exact decode_encodeMemory h 0b000#3 d rest
  | st m p d => exact decode_encodeMemory h 0b001#3 d rest
  | and m p d => exact decode_encodeMemory h 0b010#3 d rest
  | or m p d => exact decode_encodeMemory h 0b011#3 d rest
  | xor m p d => exact decode_encodeMemory h 0b100#3 d rest
  | dad m p d => exact decode_encodeMemory h 0b101#3 d rest
  | add m p d => exact decode_encodeMemory h 0b110#3 d rest
  | cad m p d => exact decode_encodeMemory h 0b111#3 d rest
  | jmp p d => exact decode_encodeBranch 0b00#2 p d rest
  | jp p d => exact decode_encodeBranch 0b01#2 p d rest
  | jz p d => exact decode_encodeBranch 0b10#2 p d rest
  | jnz p d => exact decode_encodeBranch 0b11#2 p d rest
  | ild p d => cases p <;> rfl
  | dld p d => cases p <;> rfl
  | xpal p => cases p <;> rfl
  | xpah p => cases p <;> rfl
  | xppc p => cases p <;> rfl
  | _ => rfl

/-! ## From the instruction back to the encoding -/

/-- Format PT, and the first byte of formats ID and JP. -/
theorem encodePtr_bitField {op : Byte} {op6 : BitVec 6} (h : bitField op 2 6 = op6) :
    encodePtr op6 (Ptr.ofBits (bitField op 0 2)) = [op] := by
  rw [encodePtr, Ptr.toBits_ofBits, ← h, append_bitField_ptr]

theorem encodePtrDisp_bitField {op : Byte} {op6 : BitVec 6} (d : Byte) (h : bitField op 2 6 = op6) :
    encodePtrDisp op6 (Ptr.ofBits (bitField op 0 2)) d = [op, d] := by
  rw [encodePtrDisp, Ptr.toBits_ofBits, ← h, append_bitField_ptr]

/-- Each row of format IP is the encoding of its instruction. -/
theorem impliedTable_encode : ∀ x ∈ impliedTable, x.2.wellFormed = true ∧ encode x.2 = [x.1] := by decide

theorem mem_of_lookup_eq_some {l : List (Byte × Instr)} {op : Byte} {i : Instr} (h : l.lookup op = some i) :
    (op, i) ∈ l := by
  obtain ⟨before, after, rfl, -⟩ := List.lookup_eq_some_iff.mp h
  simp

theorem encode_of_decodeOneByte {op : Byte} {i : Instr} (h : decodeOneByte op = some i) :
    i.wellFormed = true ∧ encode i = [op] := by
  unfold decodeOneByte at h
  split at h
  next hrow =>
    obtain rfl := Option.some.inj h
    exact impliedTable_encode _ (mem_of_lookup_eq_some hrow)
  next =>
    split_ifs at h with hxpal hxpah hxppc <;> obtain rfl := Option.some.inj h
    · exact ⟨rfl, encodePtr_bitField hxpal⟩
    · exact ⟨rfl, encodePtr_bitField hxpah⟩
    · exact ⟨rfl, encodePtr_bitField hxppc⟩

theorem encode_of_decodeTwoByte {op d : Byte} {i : Instr} (h : decodeTwoByte op d = some i) :
    i.wellFormed = true ∧ encode i = [op, d] := by
  unfold decodeTwoByte at h
  split_ifs at h with hdly hbranch hild hdld hgroup himm
  · obtain rfl := Option.some.inj h
    exact ⟨rfl, by rw [hdly, encode]⟩
  · obtain rfl := Option.some.inj h
    refine ⟨decodeBranch_wellFormed .., ?_⟩
    rw [encode_decodeBranch, encodePtrDisp, Ptr.toBits_ofBits, ← hbranch, append_bitField_branch]
  · obtain rfl := Option.some.inj h
    exact ⟨rfl, encodePtrDisp_bitField d hild⟩
  · obtain rfl := Option.some.inj h
    exact ⟨rfl, encodePtrDisp_bitField d hdld⟩
  · obtain ⟨hwf, hencode⟩ := encode_of_decodeImmediate h
    rw [← hgroup, ← himm, append_bitField_immediate] at hencode
    exact ⟨hwf, hencode⟩
  · obtain rfl := Option.some.inj h
    refine ⟨by simp [memFields_wellFormed_eq, himm], ?_⟩
    rw [encode_decodeMemory, encodeMemory, IndexMode.toBit_ofBit, Ptr.toBits_ofBits, ← hgroup, append_bitField_memory]

/-- Settles O2. -/
theorem encodeOfDecode : Obligations.EncodeOfDecode := by
  intro bs rest i h
  rcases decode_ok_cases h with ⟨op, rfl, hop⟩ | ⟨op, d, rfl, hop⟩
  · obtain ⟨hwf, hencode⟩ := encode_of_decodeOneByte hop
    exact ⟨hwf, by rw [hencode]; rfl⟩
  · obtain ⟨hwf, hencode⟩ := encode_of_decodeTwoByte hop
    exact ⟨hwf, by rw [hencode]; rfl⟩

/-- Settles O3: each word is the encoding of its instruction. -/
theorem writtenWordsDecode : Obligations.WrittenWordsDecode :=
  ⟨decodeOfEncode (.ld .plain .p1 0x05#8) [] rfl, decodeOfEncode (.st .auto .p2 0xFF#8) [] rfl,
    decodeOfEncode (.ldi 0x80#8) [] rfl, decodeOfEncode .rrl [] rfl, decodeOfEncode (.dld .p2 0x00#8) [] rfl,
    decodeOfEncode (.jnz .p3 0x04#8) [] rfl, decodeOfEncode .ade [] rfl, decodeOfEncode (.xppc .p3) [0x00#8] rfl,
    decodeOfEncode (.dly 0x80#8) [] rfl⟩

end Sys2Proof
end

section
/-! The first bytes that are no instruction (spec/30_encoding.md R88, R89), in the decoder and in a step. -/

namespace Sys2Proof.Machine

/-! ## The undefined first bytes -/

theorem decodeOneByte_eq_none_iff {op : Byte} (hlen : isTwoByte op = false) :
    decodeOneByte op = none ↔ UndefinedFirstByte op := by
  unfold UndefinedFirstByte
  revert op; decide

/-- The second byte plays no part in whether there is an instruction. -/
theorem decodeTwoByte_eq_none_iff_fields {op d : Byte} :
    decodeTwoByte op d = none ↔
      op ≠ 0x8F#8 ∧ bitField op 4 4 ≠ 0b1001#4 ∧ bitField op 2 6 ≠ 0b101010#6 ∧ bitField op 2 6 ≠ 0b101110#6 ∧
        (bitField op 6 2 = 0b11#2 → bitField op 0 3 = 0b100#3 ∧ bitField op 3 3 = 0b001#3) := by
  rw [decodeTwoByte]
  split_ifs <;> simp [*, decodeImmediate_eq_none_iff]

theorem decodeTwoByte_eq_none_iff {op : Byte} (d : Byte) (hlen : isTwoByte op = true) :
    decodeTwoByte op d = none ↔ UndefinedFirstByte op := by
  rw [decodeTwoByte_eq_none_iff_fields]
  unfold UndefinedFirstByte
  revert op; decide

theorem decodeOpcode_eq_error_iff_undefined {op d : Byte} {e : DecodeError} :
    decodeOpcode op d = .error e ↔ UndefinedFirstByte op ∧ e = .undefinedOpcode op := by
  rw [decodeOpcode_eq_error_iff]
  split
  next hlen => rw [decodeTwoByte_eq_none_iff d hlen]
  next hlen => rw [decodeOneByte_eq_none_iff (by simpa using hlen)]

theorem decode_twoBytes_error_iff {op d : Byte} {rest : List Byte} {e : DecodeError} :
    decode (op :: d :: rest) = .error e ↔ UndefinedFirstByte op ∧ e = .undefinedOpcode op := by
  cases hlen : isTwoByte op with
  | false => rw [decode_oneByte _ hlen, map_pair_eq_error_iff, decodeOpcode_eq_error_iff_undefined]
  | true => rw [decode_twoByte d rest hlen, map_pair_eq_error_iff, decodeOpcode_eq_error_iff_undefined]

/-! ## A step on one -/

/-- The fetch gives the decoder as many bytes as bit 7 of the first asks for, so that it never answers `truncated`. -/
theorem decode_fetchBytes (s : State) :
    ∃ d, decode (fetchBytes s).1 = (decodeOpcode (fetchByte s.inputs.fetchByte1 s).1 d).map fun i => (i, []) := by
  rw [fetchBytes_eq]
  split
  next hlen => exact ⟨_, decode_twoByte _ [] hlen⟩
  next hlen => exact ⟨_, decode_oneByte [] (by simpa using hlen)⟩

theorem fetchInstruction_of_undefined {s : State} {op : Byte} (hop : (fetchByte s.inputs.fetchByte1 s).1 = op)
    (hundef : UndefinedFirstByte op) : fetchInstruction s = .error (.undefinedOpcode op) := by
  obtain ⟨d, hdecode⟩ := decode_fetchBytes s
  have hopcode : decodeOpcode op d = .error (.undefinedOpcode op) :=
    decodeOpcode_eq_error_iff_undefined.mpr ⟨hundef, rfl⟩
  rw [hop, hopcode] at hdecode
  rw [fetchInstruction, hdecode]
  rfl

/-- Settles O4: the interrupt check before the fetch changes no draw. -/
theorem undefinedOpcodesRefused : Obligations.UndefinedOpcodesRefused := by
  refine ⟨fun op d rest => by simp [decode_twoBytes_error_iff], fun s op hnext hop hundef => ?_⟩
  have hfetch : fetchInstruction (interruptCheck s) = .error (.undefinedOpcode op) :=
    fetchInstruction_of_undefined (by simpa using hop) hundef
  rw [step_of_instructionNext hnext, instructionStep, hfetch]

end Sys2Proof.Machine
end

section
/-! Addressing (spec/40_addressing_and_alu.md R110 to R116): page-local addition, the plain and the auto-indexed effective
address, and the stack an auto-indexed pointer makes. -/

namespace Sys2Proof.Machine

/-! ## Page-local addition -/

theorem offsetOf_add12 (p : Word) (k : Int) :
    ((offsetOf (add12 p k)).toNat : Int) = ((offsetOf p).toNat + k) % 4096 := by
  rw [add12, offsetOf_append, BitVec.toNat_ofInt]
  exact Int.toNat_of_nonneg (Int.emod_nonneg _ (by decide))

/-- Settles O9. -/
theorem add12StaysInPage : Obligations.Add12StaysInPage := fun p k => ⟨pageOf_add12 p k, offsetOf_add12 p k⟩

/-! ## Effective addresses -/

/-- Settles O10: with the index mode plain, `EA_mem` is `eaPlain` and rewrites nothing. -/
theorem plainEffectiveAddress : Obligations.PlainEffectiveAddress := fun _ _ _ => rfl

/-- Auto-indexing moves the pointer by the displacement, whichever address is accessed (R115). -/
theorem eaMem_auto {p : Ptr} (hp : p ≠ .p0) (d : Byte) (s : State) :
    eaMem .auto p d s = some (eaAuto p d s, s.setPtr p (add12 (s.ptr p) (dispOf d s))) := by
  simp [eaMem, hp]

/-- Pre-decrement. -/
theorem eaAuto_of_neg {d : Byte} {s : State} (h : dispOf d s < 0) (p : Ptr) :
    eaAuto p d s = add12 (s.ptr p) (dispOf d s) := if_pos h

/-- Post-increment. -/
theorem eaAuto_of_nonneg {d : Byte} {s : State} (h : 0 ≤ dispOf d s) (p : Ptr) : eaAuto p d s = s.ptr p :=
  if_neg (not_lt.mpr h)

theorem State.ptr_setPtr_same (s : State) (p : Ptr) (v : Word) : (s.setPtr p v).ptr p = v := by simp

/-- Settles O11: the sign of the displacement, E substituted, selects `eaAuto_of_neg` or `eaAuto_of_nonneg`. -/
theorem autoIndexedAddress : Obligations.AutoIndexedAddress := by
  intro p d s k hp hk
  obtain rfl : k = dispOf d s := hk
  refine ⟨_, _, eaMem_auto hp d s, State.ptr_setPtr_same .., fun hneg => ?_, fun hpos => ?_, ?_⟩
  · rw [State.ptr_setPtr_same, eaAuto_of_neg hneg]
  · exact eaAuto_of_nonneg hpos p
  · rw [State.ptr_setPtr_same]

/-! ## The stack -/

theorem withOperand_of_eaMem {m : IndexMode} {p : Ptr} {d : Byte} {s t : State} {a : Word}
    (hea : eaMem m p d s = some (a, t)) (f : Byte → State → State) :
    withOperand f m p d s = .next (f (dataRead a t).1 (dataRead a t).2) := by
  simp [withOperand, hea]

/-- The state `ST @-1(p)` leaves: the pointer one lower, AC written where it then points (R115, R131). -/
def pushed (p : Ptr) (s : State) : State :=
  memWrite (add12 (s.ptr p) (-1)) s.ac (s.setPtr p (add12 (s.ptr p) (-1)))

theorem exec_push {p : Ptr} (hp : p ≠ .p0) (s : State) : exec (.st .auto p 0xFF#8) s = .next (pushed p s) := by
  have hdisp : dispOf 0xFF#8 s = -1 := rfl
  have hea := eaMem_auto hp 0xFF#8 s
  rw [eaAuto_of_neg (by simp [hdisp]), hdisp] at hea
  simp [exec, execSt, hea, pushed]

theorem pushed_ptr (p : Ptr) (s : State) : (pushed p s).ptr p = add12 (s.ptr p) (-1) := by simp [pushed]

theorem pushed_kindOf (p : Ptr) (s : State) (a : Word) : (pushed p s).kindOf a = s.kindOf a :=
  State.kindOf_of_memmap (by simp [pushed]) (by simp [pushed]) a

/-- Pushed onto RAM, AC is the byte under the pointer. -/
theorem pushed_byteAt {p : Ptr} {s : State} (hwf : Memory.wf s.mem = true)
    (hram : s.kindOf (add12 (s.ptr p) (-1)) = .ram) : (pushed p s).byteAt (add12 (s.ptr p) (-1)) = s.ac := by
  rw [pushed, memWrite_byteAt (by simpa using hwf)]
  exact if_pos ⟨by simpa using hram, rfl⟩

/-- `LD @1(p)` in memory: AC is read where the pointer points, which then goes up one (R115, R130). -/
theorem exec_pop {p : Ptr} {s : State} (hp : p ≠ .p0) (hmem : IsMemory s (s.ptr p)) :
    exec (.ld .auto p 0x01#8) s =
      .next ((s.setPtr p (add12 (s.ptr p) 1)).setAc (s.byteAt (s.ptr p))) := by
  have hdisp : dispOf 0x01#8 s = 1 := rfl
  have hea := eaMem_auto hp 0x01#8 s
  rw [eaAuto_of_nonneg (by simp [hdisp]), hdisp] at hea
  have hmem' : IsMemory (s.setPtr p (add12 (s.ptr p) 1)) (s.ptr p) := by simpa [IsMemory] using hmem
  have hread : dataRead (s.ptr p) (s.setPtr p (add12 (s.ptr p) 1)) = (s.byteAt (s.ptr p), _) :=
    (busRead_of_isMemory hmem' ..).trans (by rw [State.setPtr_byteAt])
  calc exec (.ld .auto p 0x01#8) s
      _ = withOperand (fun v t => t.setAc v) .auto p 0x01#8 s := rfl
      _ = _ := by rw [withOperand_of_eaMem hea, hread]

/-- Settles O19: a push leaves the stored AC under the pointer, and a pop overwrites whatever AC has become. -/
theorem pushThenPop : Obligations.PushThenPop := by
  intro p s hp hwf hram
  refine ⟨pushed p s, ((pushed p s).setPtr p (s.ptr p)).setAc s.ac, exec_push hp s, pushed_ptr p s,
    fun x => ⟨?_, by simp, by simp⟩⟩
  have hptr : ((pushed p s).setAc x).ptr p = add12 (s.ptr p) (-1) := by rw [State.setAc_ptr, pushed_ptr]
  have hback : add12 (add12 (s.ptr p) (-1)) 1 = s.ptr p := by simp [add12_add12]
  have hmem : IsMemory ((pushed p s).setAc x) (((pushed p s).setAc x).ptr p) := by
    rw [hptr]
    exact .inl ((pushed_kindOf p s _).trans hram)
  have hoverwrite : (((pushed p s).setAc x).setPtr p (s.ptr p)).setAc s.ac =
      ((pushed p s).setPtr p (s.ptr p)).setAc s.ac := by cases p <;> rfl
  calc exec (.ld .auto p 0x01#8) ((pushed p s).setAc x)
      _ = .next ((((pushed p s).setAc x).setPtr p (s.ptr p)).setAc s.ac) := by
        rw [exec_pop hp hmem, hptr, hback, State.setAc_byteAt, pushed_byteAt hwf hram]
      _ = .next (((pushed p s).setPtr p (s.ptr p)).setAc s.ac) := by rw [hoverwrite]

end Sys2Proof.Machine
end

section
/-! The adders in the instructions that use them (spec/40_addressing_and_alu.md R118 to R123): the whole effect of each sum
on any operand, its three operand forms, and the flags an instruction leaves alone. -/

namespace Sys2Proof.Machine

/-! ## The whole effect of a sum -/

theorem addToAc_effect (b : Byte) (s : State) : BinaryAddEffect b s (addToAc b s) :=
  ⟨addBin_result_toNat .., addBin_carry_iff .., addBin_overflow_iff .., rfl⟩

theorem complement_toNat (b : Byte) : ((~~~b).toNat : Int) = 255 - b.toNat := by
  rw [BitVec.toNat_not]
  omega

/-- Complement-and-add is the binary add of `255 - b`, as a signed number `-b - 1` (R119). -/
theorem complementAddToAc_effect (b : Byte) (s : State) : ComplementAddEffect b s (complementAddToAc b s) := by
  obtain ⟨hac, hcyl, hov, hframe⟩ := addToAc_effect (~~~b) s
  have hnat := complement_toNat b
  have hint : s.ac.toInt + (~~~b).toInt + carryIn s = s.ac.toInt - b.toInt - 1 + carryIn s := by
    rw [complement_toInt]
    omega
  refine ⟨?_, ?_, hint ▸ hov, hframe⟩
  · rw [complementAddToAc]
    omega
  · rw [complementAddToAc, hcyl]
    omega

theorem isBcd_iff (b : Byte) : isBcd b = true ↔ units b ≤ 9 ∧ tens b ≤ 9 := by simp [isBcd]

/-- One digit of a decimal sum: two digits and a carry. -/
theorem decDigit_sum {x y : Nat} (hx : x ≤ 9) (hy : y ≤ 9) (c : Bool) :
    (decDigit (x + y + c.toNat)).1.toNat + 10 * (decDigit (x + y + c.toNat)).2.toNat = x + y + c.toNat ∧
      (decDigit (x + y + c.toNat)).1.toNat ≤ 9 := by
  have hc := c.toNat_le
  exact decDigit_value (by omega)

/-- Digit by digit, the decimal sum of digits is their sum as numbers (R120). -/
theorem addDecDigits_value {a b : Byte} (c : Bool) (ha : isBcd a = true) (hb : isBcd b = true) :
    isBcd (addDecDigits a b c).result = true ∧
      decimalValue (addDecDigits a b c).result + 100 * (addDecDigits a b c).carry.toNat =
        decimalValue a + decimalValue b + c.toNat := by
  obtain ⟨hau, hat⟩ := (isBcd_iff a).mp ha
  obtain ⟨hbu, hbt⟩ := (isBcd_iff b).mp hb
  obtain ⟨hlo, hloDigit⟩ := decDigit_sum hau hbu c
  obtain ⟨hhi, hhiDigit⟩ := decDigit_sum hat hbt (decDigit (units a + units b + c.toNat)).2
  simp only [isBcd_iff, decimalValue, addDecDigits, units_append, tens_append]
  exact ⟨⟨hloDigit, hhiDigit⟩, by omega⟩

theorem decimalAddToAc_effect {b : Byte} {s : State} (hac : isBcd s.ac = true) (hb : isBcd b = true) :
    DecimalAddEffect b s (decimalAddToAc b s) := by
  have hsum := addDecDigits_value s.sr.cyl hac hb
  rw [← addDec_digits s.sr.cyl s.drawnDecimal hac hb] at hsum
  obtain ⟨hdigits, hvalue⟩ := hsum
  exact ⟨hdigits, hvalue, rfl⟩

/-! ## The three operand forms -/

/-- An operation on the operand of well-formed fields completes, with whatever effect it has on every operand. -/
theorem withOperand_effect {f : Byte → State → State} {Effect : Byte → State → State → Prop}
    (hf : ∀ b r, Effect b r (f b r)) {m : IndexMode} {p : Ptr} (hwf : MemFields.wellFormed m p = true) (d : Byte)
    (s : State) :
    ∃ a t u, eaMem m p d s = some (a, t) ∧ withOperand f m p d s = .next u ∧
      Effect (dataRead a t).1 (dataRead a t).2 u := by
  obtain ⟨⟨a, t⟩, hea⟩ := Option.isSome_iff_exists.mp ((eaMem_isSome m p d s).trans hwf)
  exact ⟨a, t, _, hea, withOperand_of_eaMem hea f, hf _ _⟩

/-- Settles O20. -/
theorem binaryAdds : Obligations.BinaryAdds :=
  ⟨fun _ _ d s hwf => withOperand_effect addToAc_effect hwf d s,
    fun d s => ⟨_, rfl, addToAc_effect d s⟩, fun s => ⟨_, rfl, addToAc_effect s.e s⟩⟩

/-- Settles O21. -/
theorem complementAdds : Obligations.ComplementAdds :=
  ⟨fun _ _ d s hwf => withOperand_effect complementAddToAc_effect hwf d s,
    fun d s => ⟨_, rfl, complementAddToAc_effect d s⟩, fun s => ⟨_, rfl, complementAddToAc_effect s.e s⟩⟩

/-- Settles O22: with the carry in, the difference `AC - d - 1 + CY/L` is `AC - d`. -/
theorem complementAddSubtracts : Obligations.ComplementAddSubtracts := by
  intro d s hset
  obtain ⟨hac, hcyl, -, -⟩ := complementAddToAc_effect d s
  have hcarry : carryIn s = 1 := by simp [carryIn, hset]
  refine ⟨_, rfl, BitVec.eq_of_toNat_eq ?_, ?_⟩
  · rw [BitVec.toNat_sub]
    omega
  · rw [hcyl]
    omega

/-- Settles O23: neither the effective address nor the read writes AC, so its digits are still there to be added. -/
theorem decimalAdds : Obligations.DecimalAdds := by
  refine ⟨fun m p d s a t hea hac hb => ?_, fun d s hac hb => ⟨_, rfl, decimalAddToAc_effect hac hb⟩,
    fun s hac hb => ⟨_, rfl, decimalAddToAc_effect hac hb⟩⟩
  have hacRead : isBcd (dataRead a t).2.ac = true := by rw [dataRead_ac, eaMem_ac hea, hac]
  exact ⟨_, withOperand_of_eaMem hea decimalAddToAc, decimalAddToAc_effect hacRead hb⟩

/-! ## The flag table (R123) -/

/-- CY/L is written by the sums, RRL, CCL, SCL and CAS alone. -/
theorem exec_cyl {i : Instr} {s t : State} (h : exec i s = .next t) (hw : mayWriteCyl i = false) :
    t.sr.cyl = s.sr.cyl := by
  replace h := exec_next h
  cases i <;> cases hw
  case ld | st | and | or | xor => obtain ⟨a, r, he, rfl⟩ := h; simp [eaMem_sr he]
  all_goals obtain rfl := h; simp

/-- OV is written by the binary sums and CAS alone. -/
theorem exec_ov {i : Instr} {s t : State} (h : exec i s = .next t) (hw : mayWriteOv i = false) :
    t.sr.ov = s.sr.ov := by
  replace h := exec_next h
  cases i <;> cases hw
  case ld | st | and | or | xor | dad =>
    obtain ⟨a, r, he, rfl⟩ := h
    simp [eaMem_sr he, decimalAddToAc_sr]
  all_goals obtain rfl := h; simp [decimalAddToAc_sr]

/-- IE is written by IEN, DINT and CAS alone. -/
theorem exec_ie {i : Instr} {s t : State} (h : exec i s = .next t) (hw : mayWriteIe i = false) :
    t.sr.ie = s.sr.ie := by
  replace h := exec_next h
  cases i <;> cases hw
  case ld | st | and | or | xor | dad | add | cad =>
    obtain ⟨a, r, he, rfl⟩ := h
    simp [eaMem_sr he, addToAc_sr, complementAddToAc_sr, decimalAddToAc_sr]
  all_goals obtain rfl := h; simp [addToAc_sr, complementAddToAc_sr, decimalAddToAc_sr]

/-- Settles O43. -/
theorem flagEffectTable : Obligations.FlagEffectTable := by
  intro i s t h
  refine ⟨exec_cyl h, exec_ov h, exec_ie h, fun hw => exec_flagOutputs h ?_⟩
  rintro rfl
  cases hw

end Sys2Proof.Machine
end

section
/-! Memory reference instructions (spec/41_memory_reference.md R130 to R134): the results of the loads, the logical
operations and the store, and the frame of every instruction that stores (with spec/44_increment_decrement.md). -/

namespace Sys2Proof.Machine

/-! ## Results at the effective address -/

theorem exists_eaMem {m : IndexMode} {p : Ptr} (hwf : MemFields.wellFormed m p = true) (d : Byte) (s : State) :
    ∃ a t, eaMem m p d s = some (a, t) := by
  obtain ⟨⟨a, t⟩, hea⟩ := Option.isSome_iff_exists.mp ((eaMem_isSome m p d s).trans hwf)
  exact ⟨a, t, hea⟩

/-- An operation of AC and the byte read sees the AC from before the address computation and the read, which write
neither. -/
theorem withOperand_setAc {m : IndexMode} {p : Ptr} {d : Byte} {s t : State} {a : Word}
    (hea : eaMem m p d s = some (a, t)) (op : Byte → Byte → Byte) :
    withOperand (fun v r => r.setAc (op r.ac v)) m p d s =
      .next ((dataRead a t).2.setAc (op s.ac (dataRead a t).1)) := by
  rw [withOperand_of_eaMem hea, dataRead_ac, eaMem_ac hea]

/-- Settles O16: the four are `withOperand_setAc`, LD with the operation that drops the old AC. -/
theorem loadAndLogicResults : Obligations.LoadAndLogicResults := by
  intro m p d s hwf
  obtain ⟨a, t, hea⟩ := exists_eaMem hwf d s
  exact ⟨a, t, hea,
    ⟨rfl, withOperand_setAc hea fun _ v => v⟩,
    ⟨rfl, withOperand_setAc hea fun ac v => ac &&& v⟩,
    ⟨rfl, withOperand_setAc hea fun ac v => ac ||| v⟩,
    ⟨rfl, withOperand_setAc hea fun ac v => ac ^^^ v⟩⟩

theorem exec_st_of_eaMem {m : IndexMode} {p : Ptr} {d : Byte} {s t : State} {a : Word}
    (hea : eaMem m p d s = some (a, t)) : exec (.st m p d) s = .next (memWrite a s.ac t) := by
  rw [← eaMem_ac hea]
  simp [exec, execSt, hea]

/-- Settles O17. -/
theorem storeResult : Obligations.StoreResult := by
  intro m p d s hwf
  obtain ⟨a, t, hea⟩ := exists_eaMem hwf d s
  exact ⟨a, t, hea, exec_st_of_eaMem hea, by rw [memWrite_ac, eaMem_ac hea], by rw [memWrite_sr, eaMem_sr hea]⟩

/-! ## The frame of a store -/

/-- From `s` to `u` the byte `v` was stored at `a`: addresses of another place read as before, and if `a` is RAM those of
its place read `v` (R51, R53). -/
def StoredAt (a : Word) (v : Byte) (s u : State) : Prop :=
  (∀ b : Word, s.place b ≠ s.place a → u.byteAt b = s.byteAt b) ∧
    (s.kindOf a = .ram → ∀ b : Word, s.place b = s.place a → u.byteAt b = v)

theorem memWrite_storedAt {s : State} (hwf : Memory.wf s.mem = true) (a : Word) (v : Byte) :
    StoredAt a v s (memWrite a v s) := by
  refine ⟨fun b hother => ?_, fun hram b hsame => ?_⟩
  · rw [memWrite_byteAt hwf, if_neg fun h => hother h.2]
  · rw [memWrite_byteAt hwf, if_pos ⟨hram, hsame⟩]

/-- What precedes the store may be left out when it writes neither memory nor the platform's map and page bits. -/
theorem StoredAt.of_unchanged {a : Word} {v : Byte} {s t u : State} (h : StoredAt a v t u) (hmem : t.mem = s.mem)
    (hmap : t.memmap = s.memmap) (hmask : t.pageMask = s.pageMask) : StoredAt a v s u := by
  simpa only [StoredAt, State.byteAt_of_mem hmem hmask, State.kindOf_of_memmap hmap hmask,
    State.place_congr hmask] using h

theorem exec_st_storedAt {m : IndexMode} {p : Ptr} {d : Byte} {s t u : State} {a : Word}
    (hwf : Memory.wf s.mem = true) (hea : eaMem m p d s = some (a, t)) (h : exec (.st m p d) s = .next u) :
    StoredAt a s.ac s u := by
  obtain rfl := exec_st_next hea h
  have hstored : StoredAt a s.ac t (memWrite a s.ac t) := memWrite_storedAt ((eaMem_mem hea).symm ▸ hwf) a s.ac
  exact hstored.of_unchanged (eaMem_mem hea) (eaMem_memmap hea) (eaMem_pageMask hea)

/-- ILD and DLD store the byte they leave in AC (R160, R161). -/
theorem updateMemory_storedAt {s : State} (hwf : Memory.wf s.mem = true) (f : Byte → Byte) (p : Ptr) (d : Byte) :
    StoredAt (eaPlain p d s) (updateMemory f p d s).ac s (updateMemory f p d s) := by
  have hstored := memWrite_storedAt (s := (dataRead (eaPlain p d s) s).2) (by rwa [dataRead_mem]) (eaPlain p d s)
    (updateMemory f p d s).ac
  exact hstored.of_unchanged (dataRead_mem ..) (dataRead_memmap ..) (dataRead_pageMask ..)

/-- Settles O18. -/
theorem storingFrame : Obligations.StoringFrame := by
  intro m p d s hwf
  refine ⟨fun a t u hea h => exec_st_storedAt hwf hea h, fun u h => ?_⟩
  rcases h with hild | hdld
  · obtain rfl := exec_next hild
    exact updateMemory_storedAt hwf _ p d
  · obtain rfl := exec_next hdld
    exact updateMemory_storedAt hwf _ p d

end Sys2Proof.Machine
end

section
/-! Immediate load and logical operations (spec/42_immediate.md R140 to R143): byte 2 is the operand as it stands, and no
equation reads E, so the substitution of 0x80 that the address computation makes has no part here (R114). -/

namespace Sys2Proof.Machine

theorem exec_ldi (d : Byte) (s : State) : exec (.ldi d) s = .next (s.setAc d) := rfl

theorem exec_ani (d : Byte) (s : State) : exec (.ani d) s = .next (s.setAc (s.ac &&& d)) := rfl

theorem exec_ori (d : Byte) (s : State) : exec (.ori d) s = .next (s.setAc (s.ac ||| d)) := rfl

theorem exec_xri (d : Byte) (s : State) : exec (.xri d) s = .next (s.setAc (s.ac ^^^ d)) := rfl

/-- Settles O25: each encoding is an equation of `encode`, and `State.setAc` writes AC and no other field. -/
theorem immediateLoadAndLogic : Obligations.ImmediateLoadAndLogic := by
  intro d s
  exact ⟨⟨rfl, exec_ldi d s⟩, ⟨rfl, exec_ani d s⟩, ⟨rfl, exec_ori d s⟩, ⟨rfl, exec_xri d s⟩⟩

end Sys2Proof.Machine
end

section
/-! Shifts and rotates (spec/43_shift_rotate.md R150 to R154). RR rotates the eight bits of AC and RRL the nine bits of
CY/L and AC, so one fact about rotates, of every width, restores both. -/

namespace Sys2Proof.Machine

/-! ## One execution -/

theorem exec_sio (s : State) :
    exec .sio s =
      .next (((s.setE (shiftIn s.inputs.serialIn s.e)).setSout (bitZero s.e)).emit (.serialOut (bitZero s.e))) := rfl

theorem exec_sr (s : State) : exec .sr s = .next (s.setAc (shiftIn false s.ac)) := rfl

theorem exec_srl (s : State) : exec .srl s = .next (s.setAc (shiftIn s.sr.cyl s.ac)) := rfl

theorem exec_rr (s : State) : exec .rr s = .next (s.setAc (shiftIn (bitZero s.ac) s.ac)) := rfl

theorem exec_rrl (s : State) :
    exec .rrl s = .next ((s.setAc (shiftIn s.sr.cyl s.ac)).setCyl (bitZero s.ac)) := rfl

/-- Settles O27: a shift that zero enters is a halving. -/
theorem shiftRight : Obligations.ShiftRight := by
  intro s
  have hhalf : (shiftIn false s.ac).toNat = s.ac.toNat / 2 := by simp [shiftIn_toNat]
  exact ⟨_, exec_sr s, hhalf, rfl⟩

/-- Settles O29: SIO's equation writes E, SOUT and the event list alone. -/
theorem serialInputOutput : Obligations.SerialInputOutput := fun s =>
  ⟨_, exec_sio s, shiftIn_toNat s.inputs.serialIn s.e, bitZero_iff s.e, rfl⟩

/-! ## Several in a row -/

/-- If an instruction acts as `f` on the part of the state that `embed` fills in, `n` of them act as `f` iterated. -/
theorem execTimes_iterate {α : Type} {i : Instr} {embed : α → State} {f : α → α}
    (h : ∀ x, exec i (embed x) = .next (embed (f x))) (n : Nat) (x : α) :
    execTimes i n (embed x) = .next (embed (f^[n] x)) := by
  induction n generalizing x with
  | zero => rfl
  | succ n ih => rw [execTimes, h, Function.iterate_succ_apply]; exact ih (f x)

/-! ## Bits of the shifted byte -/

theorem shiftIn_getLsbD (x : Bool) (v : Byte) {k : Nat} (hk : k < 8) :
    (shiftIn x v).getLsbD k = if k = 7 then x else v.getLsbD (k + 1) := by
  have hsplit : shiftIn x v = (v.extractLsb' 1 7).cons x := rfl
  rw [hsplit, BitVec.getLsbD_cons, BitVec.getLsbD_extractLsb']
  split
  · rfl
  · simp [show k < 7 by omega, Nat.add_comm]

/-- Ones fill the byte from the left, and what is left of `v` has moved down. -/
theorem shiftIn_true_iterate_getLsbD (v : Byte) (n : Nat) {k : Nat} (hk : k < 8) :
    ((shiftIn true)^[n] v).getLsbD k = (decide (8 ≤ k + n) || v.getLsbD (k + n)) := by
  induction n generalizing k with
  | zero => simp [hk]
  | succ n ih =>
    rw [Function.iterate_succ_apply', shiftIn_getLsbD _ _ hk]
    split
    · simp [show 8 ≤ k + (n + 1) by omega]
    · rw [ih (by omega), Nat.add_right_comm, Nat.add_assoc]

theorem shiftIn_true_iterate_eight (v : Byte) : (shiftIn true)^[8] v = 0xFF#8 := by
  refine BitVec.eq_of_getLsbD_eq fun k hk => ?_
  have hone : (BitVec.allOnes 8).getLsbD k = true := BitVec.getLsbD_allOnes.trans (decide_eq_true hk)
  rw [shiftIn_true_iterate_getLsbD v 8 hk, decide_eq_true (Nat.le_add_left 8 k), Bool.true_or]
  exact hone.symm

/-! ## Rotates of any width -/

theorem rotateRight_one_getLsbD {w : Nat} (x : BitVec w) {k : Nat} (hk : k < w) :
    (x.rotateRight 1).getLsbD k = x.getLsbD ((k + 1) % w) := by
  rw [BitVec.getLsbD_rotateRight]
  rcases Nat.lt_or_eq_of_le (Nat.succ_le_of_lt hk) with hinner | rfl
  · simp [Nat.mod_eq_of_lt hinner, Nat.mod_eq_of_lt (show 1 < w by omega), show k < w - 1 by omega, Nat.add_comm]
  · cases k <;> simp

theorem rotateRight_one_iterate_getLsbD {w : Nat} (x : BitVec w) (n : Nat) {k : Nat} (hk : k < w) :
    ((fun y => y.rotateRight 1)^[n] x).getLsbD k = x.getLsbD ((k + n) % w) := by
  induction n generalizing k with
  | zero => simp [Nat.mod_eq_of_lt hk]
  | succ n ih =>
    rw [Function.iterate_succ_apply', rotateRight_one_getLsbD _ hk, ih (Nat.mod_lt _ (by omega)), Nat.mod_add_mod,
      Nat.add_right_comm, Nat.add_assoc]

theorem rotateRight_one_iterate_width {w : Nat} (x : BitVec w) : (fun y => y.rotateRight 1)^[w] x = x := by
  refine BitVec.eq_of_getLsbD_eq fun k hk => ?_
  rw [rotateRight_one_iterate_getLsbD x w hk, Nat.add_mod_right, Nat.mod_eq_of_lt hk]

/-! ## The two rotates of the machine -/

/-- RR's function of AC is the eight-bit rotate (R153). -/
theorem shiftIn_bitZero (v : Byte) : shiftIn (bitZero v) v = v.rotateRight 1 := by
  refine BitVec.eq_of_getLsbD_eq fun k hk => ?_
  rw [shiftIn_getLsbD _ _ hk, rotateRight_one_getLsbD v hk]
  split
  · next htop => rw [htop]; rfl
  · rw [Nat.mod_eq_of_lt (by omega)]

/-- RRL's function of CY/L and AC is the nine-bit rotate (R154). -/
theorem cons_bitZero_shiftIn (c : Bool) (v : Byte) : (shiftIn c v).cons (bitZero v) = (v.cons c).rotateRight 1 := by
  refine BitVec.eq_of_getLsbD_eq fun k hk => ?_
  rw [rotateRight_one_getLsbD _ hk, BitVec.getLsbD_cons, BitVec.getLsbD_cons]
  split
  · next htop => rw [htop]; rfl
  · rw [shiftIn_getLsbD _ _ (by omega), Nat.mod_eq_of_lt (by omega)]
    simp

/-- CY/L and AC as RRL sees them, nine bits with CY/L on top (R154). -/
def State.setLinked (s : State) (x : BitVec 9) : State := (s.setAc (x.setWidth 8)).setCyl x.msb

theorem State.setLinked_cons (s : State) (c : Bool) (v : Byte) : s.setLinked (v.cons c) = (s.setAc v).setCyl c := by
  rw [setLinked, BitVec.setWidth_cons, BitVec.msb_cons]

theorem State.setLinked_self (s : State) : s.setLinked (s.ac.cons s.sr.cyl) = s := s.setLinked_cons s.sr.cyl s.ac

theorem exec_rrl_setLinked (s : State) (x : BitVec 9) :
    exec .rrl (s.setLinked x) = .next (s.setLinked (x.rotateRight 1)) := by
  rw [← x.cons_msb_setWidth, ← cons_bitZero_shiftIn, State.setLinked_cons, State.setLinked_cons]
  rfl

/-! ## Eight SRL, eight RR, nine RRL -/

theorem execTimes_srl_eight {s : State} (hset : s.sr.cyl = true) : execTimes .srl 8 s = .next (s.setAc 0xFF#8) := by
  have hstep : ∀ v, exec .srl (s.setAc v) = .next (s.setAc (shiftIn true v)) := by
    intro v
    rw [exec_srl, State.setAc_sr, hset]
    rfl
  rw [← shiftIn_true_iterate_eight s.ac]
  exact execTimes_iterate hstep 8 s.ac

theorem execTimes_rr_eight (s : State) : execTimes .rr 8 s = .next s := by
  have hstep : ∀ v, exec .rr (s.setAc v) = .next (s.setAc (v.rotateRight 1)) := by
    intro v
    rw [exec_rr, State.setAc_ac, shiftIn_bitZero]
    rfl
  have hrestored := execTimes_iterate hstep 8 s.ac
  rwa [rotateRight_one_iterate_width] at hrestored

theorem execTimes_rrl_nine (s : State) : execTimes .rrl 9 s = .next s := by
  have hrestored := execTimes_iterate (exec_rrl_setLinked s) 9 (s.ac.cons s.sr.cyl)
  rwa [rotateRight_one_iterate_width, State.setLinked_self] at hrestored

/-- Settles O28: the single executions by what `shiftIn` does to numbers, the repeated ones by what it does to bits. -/
theorem linkShiftAndRotates : Obligations.LinkShiftAndRotates := by
  refine ⟨⟨rfl, fun s => ⟨_, exec_srl s, shiftIn_toNat s.sr.cyl s.ac, rfl⟩⟩,
    ⟨rfl, fun s => ⟨_, exec_rr s, ?_, rfl⟩⟩,
    ⟨rfl, fun s => ⟨_, exec_rrl s, shiftIn_toNat s.sr.cyl s.ac, bitZero_iff s.ac, rfl⟩⟩,
    fun _ => execTimes_srl_eight, execTimes_rr_eight, execTimes_rrl_nine⟩
  rw [State.setAc_ac, shiftIn_toNat, bitZero_toNat]

end Sys2Proof.Machine
end

section
/-! ILD and DLD (spec/44_increment_decrement.md R160, R161): one read and one write of the plain effective address, equal
but for the function of the byte, which is plus or minus 1 modulo 256. -/

namespace Sys2Proof.Machine

/-- What the two have in common, the effective address written out (R110, R112, R113). -/
theorem updateMemory_eq (f : Byte → Byte) (p : Ptr) (d : Byte) (s : State) :
    let a := add12 (s.ptr p) (if d = 0x80#8 then s.e.toInt else d.toInt)
    updateMemory f p d s =
      { memWrite a (f (dataRead a s).1) (dataRead a s).2 with ac := f (dataRead a s).1 } := rfl

theorem exec_ild (p : Ptr) (d : Byte) (s : State) :
    exec (.ild p d) s = .next (updateMemory (fun v => v + 1#8) p d s) := rfl

theorem exec_dld (p : Ptr) (d : Byte) (s : State) :
    exec (.dld p d) s = .next (updateMemory (fun v => v - 1#8) p d s) := rfl

theorem byte_pred_toNat (v : Byte) : ((v - 1#8).toNat : Int) = ((v.toNat : Int) - 1) % 256 := by
  rw [BitVec.toNat_sub, BitVec.toNat_ofNat]
  omega

/-- Settles O30: each of the two is `updateMemory_eq` at its function of the byte. -/
theorem incrementAndDecrement : Obligations.IncrementAndDecrement := by
  intro p d s a v
  have hild : exec (.ild p d) s = .next { memWrite a (v + 1#8) (dataRead a s).2 with ac := v + 1#8 } := by
    rw [exec_ild, updateMemory_eq]
  have hdld : exec (.dld p d) s = .next { memWrite a (v - 1#8) (dataRead a s).2 with ac := v - 1#8 } := by
    rw [exec_dld, updateMemory_eq]
  exact ⟨⟨rfl, v + 1#8, BitVec.toNat_add v 1#8, hild⟩, ⟨rfl, v - 1#8, byte_pred_toNat v, hdld⟩⟩

end Sys2Proof.Machine
end

section
/-! Branches (spec/45_branch.md R165 to R168): one write of the PC, under four conditions on AC. What each condition says
of AC as a number does not depend on the displacement byte, so it is said here for every byte. -/

namespace Sys2Proof.Machine

/-- A branch whose test decides `c` goes to the jump address when `c` holds. -/
theorem branchIf_of_iff {taken : Bool} {c : Prop} [Decidable c] (h : taken = true ↔ c) (p : Ptr) (d : Byte) (s : State) :
    branchIf taken p d s = if c then s.setPc (eaJump p d s) else s := if_congr h rfl rfl

/-- AC[7] = 0 is 0 or more as a signed number. -/
theorem not_msb_iff_nonneg (v : Byte) : (!v.msb) = true ↔ 0 ≤ v.toInt := by
  rw [Bool.not_eq_true', BitVec.msb_eq_toInt, decide_eq_false_iff_not, Int.not_lt]

theorem beq_zero_iff_toNat (v : Byte) : (v == 0x00#8) = true ↔ v.toNat = 0 :=
  beq_iff_eq.trans BitVec.toNat_eq

theorem bne_zero_iff_toNat (v : Byte) : (v != 0x00#8) = true ↔ ¬ v.toNat = 0 :=
  bne_iff_ne.trans (not_congr BitVec.toNat_eq)

theorem exec_jmp (p : Ptr) (d : Byte) (s : State) : exec (.jmp p d) s = .next (s.setPc (eaJump p d s)) := rfl

theorem exec_jp (p : Ptr) (d : Byte) (s : State) :
    exec (.jp p d) s = .next (if 0 ≤ s.ac.toInt then s.setPc (eaJump p d s) else s) :=
  congrArg Host.Outcome.next (branchIf_of_iff (not_msb_iff_nonneg s.ac) p d s)

theorem exec_jz (p : Ptr) (d : Byte) (s : State) :
    exec (.jz p d) s = .next (if s.ac.toNat = 0 then s.setPc (eaJump p d s) else s) :=
  congrArg Host.Outcome.next (branchIf_of_iff (beq_zero_iff_toNat s.ac) p d s)

theorem exec_jnz (p : Ptr) (d : Byte) (s : State) :
    exec (.jnz p d) s = .next (if s.ac.toNat = 0 then s else s.setPc (eaJump p d s)) :=
  congrArg Host.Outcome.next ((branchIf_of_iff (bne_zero_iff_toNat s.ac) p d s).trans (ite_not ..))

/-- Settles O31: for a byte other than 0x80 the jump address is pointer plus displacement (R117). -/
theorem branches : Obligations.Branches := by
  intro p d s hd t
  have htarget : s.setPc (eaJump p d s) = t := by rw [eaJump_of_ne hd]; rfl
  rw [← htarget]
  exact ⟨exec_jmp p d s, exec_jp p d s, exec_jz p d s, exec_jnz p d s⟩

end Sys2Proof.Machine
end

section
/-! Moves and logic with the extension register (spec/46_extension_register.md R175 to R179): one write of AC from AC and
E, but for XAE, which exchanges the two. -/

namespace Sys2Proof.Machine

theorem exec_lde (s : State) : exec .lde s = .next (s.setAc s.e) := rfl

theorem exec_xae (s : State) : exec .xae s = .next ((s.setAc s.e).setE s.ac) := rfl

theorem exec_ane (s : State) : exec .ane s = .next (s.setAc (s.ac &&& s.e)) := rfl

theorem exec_ore (s : State) : exec .ore s = .next (s.setAc (s.ac ||| s.e)) := rfl

theorem exec_xre (s : State) : exec .xre s = .next (s.setAc (s.ac ^^^ s.e)) := rfl

/-- AC and E as XAE sees them, a pair that it swaps (R176). -/
def State.setAcE (s : State) (x : Byte × Byte) : State := (s.setAc x.1).setE x.2

theorem State.setAcE_self (s : State) : s.setAcE (s.ac, s.e) = s := rfl

/-- Both registers are read before either is written (R176). -/
theorem exec_xae_setAcE (s : State) (x : Byte × Byte) : exec .xae (s.setAcE x) = .next (s.setAcE x.swap) :=
  exec_xae (s.setAcE x)

theorem execTimes_xae_two (s : State) : execTimes .xae 2 s = .next s := by
  have hrestored := execTimes_iterate (exec_xae_setAcE s) 2 (s.ac, s.e)
  have hswap : (Prod.swap)^[2] (s.ac, s.e) = (s.ac, s.e) := Prod.swap_swap (s.ac, s.e)
  rwa [hswap, State.setAcE_self] at hrestored

/-- LDE after XAE gives AC back its old value and leaves it in E as well. -/
theorem exec_lde_after_xae (s : State) : exec .lde ((s.setAc s.e).setE s.ac) = .next (s.setE s.ac) := exec_lde _

theorem exec_xre_of_ac_eq_e {s : State} (h : s.ac = s.e) : exec .xre s = .next (s.setAc 0x00#8) := by
  rw [exec_xre, h, BitVec.xor_self]

/-- Settles O26: the five single results are the equations above; XRE after XAE and LDE finds E equal to AC. -/
theorem extensionRegisterMoves : Obligations.ExtensionRegisterMoves := by
  intro s
  have hcleared : exec .xre (s.setE s.ac) = .next ((s.setE s.ac).setAc 0x00#8) := exec_xre_of_ac_eq_e rfl
  exact ⟨⟨rfl, exec_lde s⟩, ⟨rfl, exec_xae s⟩, ⟨rfl, exec_ane s⟩, ⟨rfl, exec_ore s⟩, ⟨rfl, exec_xre s⟩,
    execTimes_xae_two s, _, _, exec_xae s, exec_lde_after_xae s, rfl, hcleared⟩

end Sys2Proof.Machine
end

section
/-! Pointer-register instructions (spec/47_pointer_register.md R190 to R192). XPAL and XPAH are one write of a pointer and
of AC and differ in the half; XPPC is the exchange of the PC that interrupt entry and return also are. -/

namespace Sys2Proof.Machine

/-! ## Exchanges of AC with a half of a pointer -/

theorem exec_xpal (p : Ptr) (s : State) :
    exec (.xpal p) s = .next ((s.setPtr p (highByte (s.ptr p) ++ s.ac)).setAc (lowByte (s.ptr p))) := rfl

theorem exec_xpah (p : Ptr) (s : State) :
    exec (.xpah p) s = .next ((s.setPtr p (s.ac ++ lowByte (s.ptr p))).setAc (highByte (s.ptr p))) := rfl

theorem ptr_setAc_setPtr (s : State) (p : Ptr) (v : Word) (b : Byte) : ((s.setPtr p v).setAc b).ptr p = v := by
  rw [State.setAc_ptr, State.ptr_setPtr, if_pos rfl]

/-- The frame of both exchanges: a pointer and AC are written, and both can be read back. -/
theorem setAc_setPtr_frame (s : State) (p : Ptr) (v : Word) (b : Byte) :
    let u := (s.setPtr p v).setAc b
    u = { s.setPtr p (u.ptr p) with ac := u.ac } := by
  dsimp only
  rw [ptr_setAc_setPtr]
  rfl

/-- Settles O33: what each exchange writes, as numbers, and the frame the two share. -/
theorem pointerHalfExchanges : Obligations.PointerHalfExchanges := by
  refine fun p s => ⟨⟨_, exec_xpal p s, lowByte_toNat (s.ptr p), ?_, setAc_setPtr_frame ..⟩,
    ⟨_, exec_xpah p s, highByte_toNat (s.ptr p), ?_, setAc_setPtr_frame ..⟩⟩
  · rw [ptr_setAc_setPtr, toNat_append_bytes, highByte_toNat]
  · rw [ptr_setAc_setPtr, toNat_append_bytes, lowByte_toNat]

/-! ## The exchange of the PC with a pointer -/

theorem exec_xppc (p : Ptr) (s : State) : exec (.xppc p) s = .next (exchangePc p s) := rfl

theorem exchangePc_p0 (p : Ptr) (s : State) : (exchangePc p s).p0 = s.ptr p := rfl

/-- The link: the pointer holds the old PC, also when it is the PC. -/
theorem exchangePc_ptr_self (p : Ptr) (s : State) : (exchangePc p s).ptr p = s.p0 := by
  rw [exchangePc_ptr]
  split
  · next hpc => rw [hpc, State.ptr_p0]
  · rw [if_pos rfl]

/-- The return: from any state whose pointer still holds the link of a call from `s`, the PC is that of `s` again. -/
theorem exchangePc_p0_of_link {p : Ptr} {s r : State} (hlink : r.ptr p = (exchangePc p s).ptr p) :
    (exchangePc p r).p0 = s.p0 := by
  rw [exchangePc_p0, hlink, exchangePc_ptr_self]

/-- Settles O34: call and return are both `exchangePc`, which writes the PC and the pointer alone. -/
theorem pointerPcExchange : Obligations.PointerPcExchange := by
  intro p s
  refine ⟨rfl, _, exec_xppc p s, exchangePc_p0 p s, exchangePc_ptr_self p s, rfl, ?_, ?_⟩
  · rintro rfl
    rfl
  · intro r w _ hlink hreturn
    obtain rfl := exec_next hreturn
    exact ⟨exchangePc_p0_of_link hlink, exchangePc_ptr_self p r⟩

end Sys2Proof.Machine
end

section
/-! Miscellaneous instructions (spec/48_miscellaneous.md R200 to R208) with the interrupt check they arm
(spec/60_exceptions.md R221 to R225): one equation per instruction, the request said once as a condition on the state, and
the two outcomes of the check as whole states. -/

namespace Sys2Proof.Machine

/-! ## The request and the check -/

/-- A request is taken with IE set, SENSE A high and no IEN pending (R221, R222). -/
theorem interruptTaken_iff (s : State) :
    interruptTaken s = true ↔ s.sr.ie = true ∧ s.inputs.senseAAtCheck = true ∧ s.ienPending = false := by
  simp [interruptTaken, and_assoc]

theorem interruptTaken_eq_false_iff (s : State) :
    interruptTaken s = false ↔ s.sr.ie = false ∨ s.inputs.senseAAtCheck = false ∨ s.ienPending = true := by
  rw [← Bool.not_eq_true, interruptTaken_iff]
  simp only [not_and_or, Bool.not_eq_true, Bool.not_eq_false]

theorem interruptTaken_of_disabled {s : State} (h : s.sr.ie = false) : interruptTaken s = false :=
  (interruptTaken_eq_false_iff s).mpr (.inl h)

/-- A check that takes the interrupt finds `ien_pending` already clear, so that it writes IE, the PC and P3 alone (R224). -/
theorem interruptCheck_of_taken {s : State} (h : interruptTaken s = true) :
    interruptCheck s = { s with sr := { s.sr with ie := false }, p0 := s.p3, p3 := s.p0 } := by
  obtain ⟨-, -, hpending⟩ := (interruptTaken_iff s).mp h
  have hsame : s.setIenPending false = s := by rw [← hpending]; rfl
  rw [interruptCheck, if_pos h, hsame]
  rfl

theorem interruptCheck_of_not_taken {s : State} (h : interruptTaken s = false) :
    interruptCheck s = { s with ienPending := false } := by
  rw [interruptCheck, h]
  rfl

/-- Settles O49: the two premises are the request and its negation. -/
theorem interruptEntry_spec : Obligations.InterruptEntry := fun s =>
  ⟨fun h => interruptCheck_of_taken ((interruptTaken_iff s).mpr h),
    fun h => interruptCheck_of_not_taken ((interruptTaken_eq_false_iff s).mpr h)⟩

/-- Settles O51: entry leaves the interrupted PC in P3, where the exchange of XPPC 3 finds it. -/
theorem interruptReturn_spec : Obligations.InterruptReturn := by
  intro s r htaken hlink
  have hinterrupted : r.p3 = s.p0 := by rw [hlink, interruptCheck_of_taken htaken]
  have hreturned : (exchangePc .p3 r).p0 = s.p0 := (exchangePc_p0 .p3 r).trans hinterrupted
  exact ⟨_, exec_xppc .p3 r, hreturned, exchangePc_ptr_self .p3 r, exchangePc_sr .p3 r, rfl⟩

/-! ## The first instruction of the handler -/

theorem isTwoByte_eq_false_of_decode {op : Byte} {i : Instr} (h : decode [op] = .ok (i, [])) : isTwoByte op = false := by
  rw [← Bool.not_eq_true]
  intro hlen
  rw [decode_cutShort hlen] at h
  cases h

/-- With bit 7 of the first byte clear, the second would be left over. -/
theorem isTwoByte_eq_true_of_decode {op d : Byte} {i : Instr} (h : decode [op, d] = .ok (i, [])) :
    isTwoByte op = true := by
  rw [← Bool.not_eq_false]
  intro hlen
  rw [decode_oneByte [d] hlen, map_pair_eq_ok_iff] at h
  simp at h

/-- The step by what is fetched in the state `t` that the check leaves (R33). -/
theorem step_of_fetchBytes {s t u : State} {bs rest : List Byte} {i : Instr} (hnext : InstructionNext s)
    (hcheck : interruptCheck s = t) (hfetch : fetchBytes t = (bs, u)) (hdecode : decode bs = .ok (i, rest)) :
    step s = finishStep (exec i u) := by
  subst hcheck
  rw [stepRunsDecodedInstruction s i rest hnext (by rwa [hfetch]), hfetch]

theorem fetchBytes_of_oneByte {t : State} {i : Instr} (hmem : IsMemory t (inc12 t.p0))
    (hdecode : decode [t.byteAt (inc12 t.p0)] = .ok (i, [])) :
    fetchBytes t = ([t.byteAt (inc12 t.p0)], { t with p0 := inc12 t.p0 }) := by
  have hlen := isTwoByte_eq_false_of_decode hdecode
  rw [isTwoByte_eq] at hlen
  exact (fetchReadsAfterIncrement t hmem).1 hlen

theorem fetchBytes_of_twoBytes {t : State} {i : Instr} (hfirst : IsMemory t (inc12 t.p0))
    (hsecond : IsMemory t (inc12 (inc12 t.p0)))
    (hdecode : decode [t.byteAt (inc12 t.p0), t.byteAt (inc12 (inc12 t.p0))] = .ok (i, [])) :
    fetchBytes t =
      ([t.byteAt (inc12 t.p0), t.byteAt (inc12 (inc12 t.p0))], { t with p0 := inc12 (inc12 t.p0) }) := by
  have hlen := isTwoByte_eq_true_of_decode hdecode
  rw [isTwoByte_eq] at hlen
  exact (fetchReadsAfterIncrement t hfirst).2 hlen hsecond

/-- Settles O50: entry puts P3 into the PC and touches no memory, so the fetch that follows reads at `Inc12(P3)`. -/
theorem interruptedStepRunsHandler : Obligations.InterruptedStepRunsHandler := by
  intro s i hnext htaken hfirst
  have hcheck := interruptCheck_of_taken htaken
  have hbyte (a : Word) : s.byteAt a = (interruptCheck s).byteAt a :=
    (State.byteAt_of_mem (interruptCheck_mem s) (interruptCheck_pageMask s) a).symm
  rw [hcheck] at hbyte
  simp only [hbyte]
  exact ⟨fun hdecode => step_of_fetchBytes hnext hcheck (fetchBytes_of_oneByte hfirst hdecode) hdecode,
    fun hsecond hdecode => step_of_fetchBytes hnext hcheck (fetchBytes_of_twoBytes hfirst hsecond hdecode) hdecode⟩

/-! ## The instructions -/

theorem exec_halt (s : State) : exec .halt s = .next (s.emit .haltPulse) := rfl

theorem exec_nop (s : State) : exec .nop s = .next s := rfl

theorem exec_ccl (s : State) : exec .ccl s = .next (s.setCyl false) := rfl

theorem exec_scl (s : State) : exec .scl s = .next (s.setCyl true) := rfl

theorem exec_dint (s : State) : exec .dint s = .next (s.setIe false) := rfl

theorem exec_ien (s : State) :
    exec .ien s = .next ((s.setIe true).setIenPending (s.ienPending || Config.ienLatencyOne)) := rfl

theorem exec_csa (s : State) : exec .csa s = .next (s.setAc (s.sr.toByte s.inputs.senseB s.inputs.senseA)) := rfl

theorem exec_cas (s : State) :
    exec .cas s = .next (((s.setSr (Status.ofByte s.ac)).setIenPending (s.ienPending || casSkipsCheck s)).emit
      (.flags (s.ac.getLsbD 2) (s.ac.getLsbD 1) (s.ac.getLsbD 0))) := rfl

theorem exec_dly (d : Byte) (s : State) :
    exec (.dly d) s = .next ((s.emit (.delayStart (delayCycles s.ac d))).setAc 0xFF#8) := rfl

/-- Settles O35. -/
theorem haltOnlyPulses : Obligations.HaltOnlyPulses := ⟨rfl, exec_halt⟩

/-- Settles O36. -/
theorem nopAndCarryBit : Obligations.NopAndCarryBit :=
  ⟨⟨rfl, rfl, rfl⟩, fun s => ⟨exec_nop s, exec_ccl s, exec_scl s⟩⟩

/-- The check after IEN, nothing pending before: skipped with IEN_LATENCY = 1, else SENSE A decides (R204, R227). -/
theorem interruptTaken_after_ien {s : State} (h : s.ienPending = false) :
    let u := (s.setIe true).setIenPending (s.ienPending || Config.ienLatencyOne)
    interruptTaken u.nextDraws = (u.nextDraws.inputs.senseAAtCheck && !Config.ienLatencyOne) := by
  intro u
  have hie : u.nextDraws.sr.ie = true := rfl
  have hpending : u.nextDraws.ienPending = Config.ienLatencyOne := by
    change (s.ienPending || Config.ienLatencyOne) = Config.ienLatencyOne
    rw [h, Bool.false_or]
  rw [interruptTaken, hie, hpending, Bool.true_and]

/-- Settles O37. -/
theorem interruptEnableBit : Obligations.InterruptEnableBit := fun s =>
  ⟨⟨_, exec_dint s, rfl, interruptTaken_of_disabled rfl⟩, ⟨_, exec_ien s, rfl, interruptTaken_after_ien⟩⟩

/-- SR as a byte, bit by bit (R23, R206). -/
theorem Status.toByte_getLsbD (r : Status) (sb sa : Bool) :
    (r.toByte sb sa).getLsbD 7 = r.cyl ∧ (r.toByte sb sa).getLsbD 6 = r.ov ∧ (r.toByte sb sa).getLsbD 5 = sb ∧
      (r.toByte sb sa).getLsbD 4 = sa ∧ (r.toByte sb sa).getLsbD 3 = r.ie ∧ (r.toByte sb sa).getLsbD 2 = r.f2 ∧
      (r.toByte sb sa).getLsbD 1 = r.f1 ∧ (r.toByte sb sa).getLsbD 0 = r.f0 := by
  simp only [Status.toByte, BitVec.getLsbD_append]
  simp

/-- Settles O38. -/
theorem copyStatusToAc : Obligations.CopyStatusToAc :=
  ⟨rfl, fun s => ⟨_, exec_csa s, rfl, s.sr.toByte_getLsbD s.inputs.senseB s.inputs.senseA⟩⟩

/-- CAS skips the next check when IE rises under IEN_LATENCY = 1 (R207). -/
theorem casSkipsCheck_iff (s : State) :
    casSkipsCheck s = true ↔
      Config.ienLatencyOne = true ∧ (Status.ofByte s.ac).ie = true ∧ s.sr.ie = false := by
  simp only [casSkipsCheck, Status.ofByte, Bool.and_eq_true, Bool.not_eq_true']
  tauto

/-- Settles O39. -/
theorem copyAcToStatus : Obligations.CopyAcToStatus := by
  intro s
  have hpending : (s.ienPending || casSkipsCheck s) = true ↔ s.ienPending = true ∨
      (Config.ienLatencyOne = true ∧ (Status.ofByte s.ac).ie = true ∧ s.sr.ie = false) := by
    rw [Bool.or_eq_true, casSkipsCheck_iff]
  exact ⟨_, exec_cas s, rfl, rfl, hpending, rfl⟩

/-- The shortest delay is with AC and the count 0, the longest with both 255 (R208). -/
theorem delayCycles_bounds (ac d : Byte) : 13 ≤ delayCycles ac d ∧ delayCycles ac d ≤ 131593 := by
  have hac := ac.isLt
  have hd := d.isLt
  rw [delayCycles]
  omega

/-- Settles O41. -/
theorem delayLength : Obligations.DelayLength := by
  intro d s
  obtain ⟨hmin, hmax⟩ := delayCycles_bounds s.ac d
  exact ⟨delayCycles s.ac d, rfl, hmin, hmax, exec_dly d s⟩

end Sys2Proof.Machine
end

section
/-! Reset (spec/70_reset_and_hazards.md R260 to R262): the first fetch after it, and NRST as a step. -/

namespace Sys2Proof.Machine

/-- Settles O7: interrupts are disabled and none is pending, and the PC is 0. -/
theorem firstFetchAtOne : Obligations.FirstFetchAtOne := by
  intro m map mask s
  have hfetch : inc12 s.p0 = 0x0001#16 := show inc12 0x0000#16 = 0x0001#16 by decide
  refine ⟨interruptCheck_of_not_taken (interruptTaken_of_disabled rfl), fun hmem => ?_⟩
  rw [← hfetch] at hmem ⊢
  exact fetchBytes_head_of_isMemory hmem

theorem nrstReset_ptr (s : State) (p : Ptr) : (nrstReset s).ptr p = 0 := by cases p <;> rfl

/-- Settles O53: NRST at the head of the script is the environment's step, whether or not the processor runs. -/
theorem nrstResets : Obligations.NrstResets := by
  intro s rest hscript
  have henv : environmentStep s = some (nrstReset { s with script := rest }) := by
    simp [environmentStep, hscript, State.dropEntry_of_script hscript]
  exact ⟨_, step_of_environment henv, rfl, rfl, rfl, nrstReset_ptr _, rfl, rfl, rfl, rfl, rfl, rfl, rfl⟩

end Sys2Proof.Machine
end

section
/-! No instruction raises an exception (spec/60_exceptions.md R220), the two open cases included: decimal sums of other
digits (R120, DAD_NONBCD) and branches with byte 0x80 (R117, JUMP_DISP80). -/

namespace Sys2Proof.Machine

/-! ## Every well-formed instruction completes -/

/-- An outcome is a next state for the fields of a well-formed instruction and the refusal `illFormed` for others. -/
def AnswersAsFormed (wf : Bool) (o : Host.Outcome State Fault Refusal) : Prop :=
  (wf = true → ∃ t, o = .next t) ∧ (wf = false → o = .refused .illFormed)

theorem answersAsFormed_next (t : State) : AnswersAsFormed true (.next t) :=
  ⟨fun _ => ⟨t, rfl⟩, nofun⟩

theorem eaMem_of_illFormed {m : IndexMode} {p : Ptr} (h : MemFields.wellFormed m p = false) (d : Byte) (s : State) :
    eaMem m p d s = none := by
  rw [← Option.not_isSome_iff_eq_none, eaMem_isSome, h]
  exact Bool.false_ne_true

theorem withOperand_answersAsFormed (f : Byte → State → State) (m : IndexMode) (p : Ptr) (d : Byte) (s : State) :
    AnswersAsFormed (MemFields.wellFormed m p) (withOperand f m p d s) := by
  refine ⟨fun hwf => ?_, fun hill => ?_⟩
  · obtain ⟨a, t, hea⟩ := exists_eaMem hwf d s
    exact ⟨_, withOperand_of_eaMem hea f⟩
  · rw [withOperand, eaMem_of_illFormed hill]

theorem exec_st_answersAsFormed (m : IndexMode) (p : Ptr) (d : Byte) (s : State) :
    AnswersAsFormed (MemFields.wellFormed m p) (exec (.st m p d) s) := by
  refine ⟨fun hwf => ?_, fun hill => ?_⟩
  · obtain ⟨a, t, hea⟩ := exists_eaMem hwf d s
    exact ⟨_, exec_st_of_eaMem hea⟩
  · rw [exec, execSt, eaMem_of_illFormed hill]

/-- Settles O8: only the format MR instructions look at an address that may not exist; the others always answer. -/
theorem execAlwaysCompletes : Obligations.ExecAlwaysCompletes := by
  intro i s
  cases i
  case ld m p d => exact withOperand_answersAsFormed (fun v t => t.setAc v) m p d s
  case and m p d => exact withOperand_answersAsFormed (fun v t => t.setAc (t.ac &&& v)) m p d s
  case or m p d => exact withOperand_answersAsFormed (fun v t => t.setAc (t.ac ||| v)) m p d s
  case xor m p d => exact withOperand_answersAsFormed (fun v t => t.setAc (t.ac ^^^ v)) m p d s
  case dad m p d | add m p d | cad m p d => exact withOperand_answersAsFormed _ m p d s
  case st m p d => exact exec_st_answersAsFormed m p d s
  all_goals exact answersAsFormed_next _

/-! ## The open cases -/

/-- With a nibble above 9 the sum is the step's draws, whatever the operand (R120). -/
theorem decimalAddToAc_drawEffect {b : Byte} {s : State} (h : (isBcd s.ac && isBcd b) = false) :
    DecimalDrawEffect s (decimalAddToAc b s) := by
  rw [DecimalDrawEffect, decimalAddToAc, addDec_drawn _ _ h]
  rfl

/-- Settles O24: as for digits, the AC that is added is the one from before the address computation and the read. -/
theorem decimalAddsOfOtherDigits : Obligations.DecimalAddsOfOtherDigits := by
  refine ⟨fun m p d s a t hea h => ?_, fun d s h => ⟨_, rfl, decimalAddToAc_drawEffect h⟩,
    fun s h => ⟨_, rfl, decimalAddToAc_drawEffect h⟩⟩
  have hac : (dataRead a t).2.ac = s.ac := by rw [dataRead_ac, eaMem_ac hea]
  exact ⟨_, withOperand_of_eaMem hea decimalAddToAc, decimalAddToAc_drawEffect (by rwa [hac])⟩

/-- Settles O32: the function is what `EA_jump` adds for the byte 0x80, one of the two effects in every state. -/
theorem branchesWithDisp80 : Obligations.BranchesWithDisp80 :=
  ⟨jumpDisp 0x80#8, jumpDisp_disp80, fun p s =>
    ⟨exec_jmp p 0x80#8 s, exec_jp p 0x80#8 s, exec_jz p 0x80#8 s, exec_jnz p 0x80#8 s⟩⟩

end Sys2Proof.Machine
end
